-- ==== Sys2Proof/Word.lean ====
section
/-! DEFINITION. The two word types of the block (R10, R22): the byte, and the 32-bit pattern of a float field. -/

namespace Sys2Proof

/-- A byte (R10). Checksum arithmetic is this type's wrapping addition (R12). -/
abbrev Byte := BitVec 8

/-- The 32-bit pattern of an IEEE-754 single (R22): stored and presented bit for bit, never computed with. -/
abbrev Pattern := BitVec 32

end Sys2Proof
end

