-- ==== Sys2Proof/Config.lean ====
section
/-! DEFINITION. What an instance of the block fixes: the hardwired constants (R7, R9), the field identifiers (R87),
and the two parameters the spec leaves OPEN, MAX_FEED and the head of INIT_SEQ (R8), each an opaque constant. -/

namespace Sys2Proof.Config

/-- `HDR_OUT` (R7). -/
abbrev hdrOut : Byte := 0xF1
/-- `HDR_IN` (R7). -/
abbrev hdrIn : Byte := 0xF0
/-- `CMD_GET` (R7). -/
abbrev cmdGet : Byte := 0xA1
/-- `CMD_SET` (R7). -/
abbrev cmdSet : Byte := 0xB1
/-- `CMD_INIT_C0` (R7). -/
abbrev cmdInitC0 : Byte := 0xC0
/-- `CMD_INIT_C1` (R7). -/
abbrev cmdInitC1 : Byte := 0xC1
/-- `OUT_LEN` (R7). -/
abbrev outLen : Byte := 0x01
/-- `REPLY_CMD` (R8, D2): the one command code the decoder accepts. Log 10. -/
abbrev replyCmd : Byte := 0xA1
/-- `MIN_SCAN` (R7). -/
abbrev minScan : Nat := 6
/-- `IN_OVERHEAD` (R7). -/
abbrev inOverhead : Nat := 5
/-- `MAX_PAYLOAD` (R9). -/
abbrev maxPayload : Nat := 255
/-- `MAX_RESIDUAL` (R9). -/
abbrev maxResidual : Nat := 259

/-- 192, input voltage (R87). -/
abbrev fidVin : Byte := 192
/-- 195, output voltage, current and power (R87). -/
abbrev fidOut : Byte := 195
/-- 196, temperature (R87). -/
abbrev fidTemp : Byte := 196
/-- 219, output enable (R87). -/
abbrev fidOutEn : Byte := 219
/-- 222, model name (R87). -/
abbrev fidModel : Byte := 222
/-- 223, hardware version (R87). -/
abbrev fidHwVer : Byte := 223
/-- 224, firmware version (R87). -/
abbrev fidFwVer : Byte := 224
/-- 226, upper voltage limit (R87). -/
abbrev fidVMax : Byte := 226
/-- 227, upper current limit (R87). -/
abbrev fidIMax : Byte := 227
/-- 255, the composite snapshot (R87). -/
abbrev fidAll : Byte := 255

/-- The ten identifiers that have a dispatch rule of their own (R87, R174). -/
def recognised : List Byte :=
  [fidVin, fidOut, fidTemp, fidOutEn, fidModel, fidHwVer, fidFwVer, fidVMax, fidIMax, fidAll]

/-- OPEN parameter (R8, D4): MAX_FEED less one. A free value: nothing constrains it. Log 3. -/
opaque maxFeedPred : Nat

/-- `MAX_FEED` (R8): a natural number at least 1, otherwise unknown. Log 3. -/
def maxFeed : Nat := maxFeedPred + 1

/-- Whether a byte sequence may be carried by one `FEED` (R130, R14). -/
def feedFits (bytes : List Byte) : Bool := decide (bytes.length ≤ maxFeed)

/-- `BUF_CAP` (R8, D4). -/
def bufCap : Nat := maxResidual + maxFeed

/-- `POS_BITS` (R8, D5): ceil(log2(BUF_CAP + 1)). -/
def posBits : Nat := Nat.log2 bufCap + 1

/-- The four command codes the block uses (R86). -/
inductive CmdCode where
  | get | set | initC0 | initC1
deriving DecidableEq, Repr, Inhabited

/-- A command code's byte (R86). -/
def CmdCode.toByte : CmdCode → Byte
  | .get => cmdGet
  | .set => cmdSet
  | .initC0 => cmdInitC0
  | .initC1 => cmdInitC1

/-- One frame of `INIT_SEQ` (R190): its command code, field identifier and value byte. -/
structure InitFrame where
  code : CmdCode
  fid : Byte
  val : Byte
deriving DecidableEq, Repr, Inhabited

/-- The undecided head of `INIT_SEQ`, shaped so that R190 (e) holds of every value: it holds at least one frame with
each of the codes 0xC0 and 0xC1 (`first` and `second`, in the order `c0First` says), with any frames around them, and
every frame carries one of the four codes. Every list with those properties has this shape. Log 4. -/
structure InitHead where
  c0First : Bool
  before : List InitFrame
  first : Byte × Byte
  between : List InitFrame
  second : Byte × Byte
  after : List InitFrame
deriving DecidableEq, Repr, Inhabited

/-- OPEN parameter (R8, D11): the head of `INIT_SEQ`. A free value. Log 4. -/
opaque initHead : InitHead

/-- The frames of a head, in order. -/
def InitHead.frames (h : InitHead) : List InitFrame :=
  h.before
    ++ [⟨if h.c0First then .initC0 else .initC1, h.first.1, h.first.2⟩]
    ++ h.between
    ++ [⟨if h.c0First then .initC1 else .initC0, h.second.1, h.second.2⟩]
    ++ h.after

/-- The decided tail of `INIT_SEQ` (R190, D11): GET 222, GET 223, GET 224, GET 255. -/
def initTail : List InitFrame :=
  [⟨.get, fidModel, 0⟩, ⟨.get, fidHwVer, 0⟩, ⟨.get, fidFwVer, 0⟩, ⟨.get, fidAll, 0⟩]

/-- `INIT_SEQ` (R8, R190). -/
def initSeq : List InitFrame := initHead.frames ++ initTail

end Sys2Proof.Config
end

