-- ==== Sys2Proof/Syntax.lean ====
section
/-! DEFINITION. The syntax: one constructor per row of spec/opcode_table.json. -/

namespace Sys2Proof

/-- The operations of the block (R86, R87, R91, R92). An inbound instruction is one checksum-valid incoming frame
(R6); it carries its payload, and `rOther` its field identifier too. -/
inductive Instr where
  /-- `ENC dir, cmd, fid, val` (R110). -/
  | enc (dir cmd fid val : Byte)
  /-- `GET fid` (R111). -/
  | get (fid : Byte)
  /-- `SET fid, val` (R112). -/
  | set (fid val : Byte)
  /-- `INITC0 fid, val` (R113). -/
  | initC0 (fid val : Byte)
  /-- `INITC1 fid, val` (R114). -/
  | initC1 (fid val : Byte)
  /-- `REQUEST_ALL` (R191). -/
  | requestAll
  /-- `ENABLE` (R192). -/
  | enable
  /-- `DISABLE` (R193). -/
  | disable
  /-- `R.VIN`, field 192 (R162). -/
  | rVin (payload : List Byte)
  /-- `R.OUT`, field 195 (R163). -/
  | rOut (payload : List Byte)
  /-- `R.TEMP`, field 196 (R164). -/
  | rTemp (payload : List Byte)
  /-- `R.OUTEN`, field 219 (R165). -/
  | rOutEn (payload : List Byte)
  /-- `R.MODEL`, field 222 (R166). -/
  | rModel (payload : List Byte)
  /-- `R.HWVER`, field 223 (R167). -/
  | rHwVer (payload : List Byte)
  /-- `R.FWVER`, field 224 (R168). -/
  | rFwVer (payload : List Byte)
  /-- `R.VMAX`, field 226 (R169). -/
  | rVMax (payload : List Byte)
  /-- `R.IMAX`, field 227 (R170). -/
  | rIMax (payload : List Byte)
  /-- `R.ALL`, field 255 (R171). -/
  | rAll (payload : List Byte)
  /-- `R.OTHER`, any other field (R172). -/
  | rOther (fid : Byte) (payload : List Byte)
  /-- `FEED bytes` (R130). -/
  | feed (bytes : List Byte)
  /-- `SNAP` (R35). -/
  | snap
  /-- `RESET` (R230). -/
  | reset
  /-- `INITIALIZE` (R190). -/
  | initialise
  /-- `POLL` (R194). -/
  | poll
deriving DecidableEq, Repr

/-- The operations with an `OUT6` frame of their own (R86, R92). -/
def Instr.isCommand : Instr → Bool
  | .enc .. | .get .. | .set .. | .initC0 .. | .initC1 .. | .requestAll | .enable | .disable => true
  | .rVin .. | .rOut .. | .rTemp .. | .rOutEn .. | .rModel .. | .rHwVer .. | .rFwVer .. | .rVMax .. | .rIMax ..
  | .rAll .. | .rOther .. | .feed .. | .snap | .reset | .initialise | .poll => false

/-- The inbound instructions, each an `INVAR` frame (R87). -/
def Instr.isReply : Instr → Bool
  | .rVin .. | .rOut .. | .rTemp .. | .rOutEn .. | .rModel .. | .rHwVer .. | .rFwVer .. | .rVMax .. | .rIMax ..
  | .rAll .. | .rOther .. => true
  | .enc .. | .get .. | .set .. | .initC0 .. | .initC1 .. | .requestAll | .enable | .disable
  | .feed .. | .snap | .reset | .initialise | .poll => false

end Sys2Proof
end

