-- ==== Sys2Proof/WellFormed.lean ====
section
/-! DEFINITION. Which terms of `Instr` are instructions of the block: a payload has at most 255 bytes (R81), `R.OTHER`
is for an identifier without a rule of its own (R172), a feed is within MAX_FEED (R130). -/

namespace Sys2Proof

/-- A payload's length fits the one length byte (R9, R81). -/
def payloadFits (payload : List Byte) : Bool := decide (payload.length ≤ Config.maxPayload)

/-- The well-formedness check. -/
def Instr.wellFormed : Instr → Bool
  | .enc .. | .get .. | .set .. | .initC0 .. | .initC1 .. | .requestAll | .enable | .disable => true
  | .rVin p | .rOut p | .rTemp p | .rOutEn p | .rModel p | .rHwVer p | .rFwVer p | .rVMax p | .rIMax p
  | .rAll p => payloadFits p
  | .rOther fid p => !Config.recognised.contains fid && payloadFits p
  | .feed bytes => Config.feedFits bytes
  | .snap | .reset | .initialise | .poll => true

/-- `i` is an instruction of the block. -/
abbrev WellFormed (i : Instr) : Prop := i.wellFormed = true

end Sys2Proof
end

