-- ==== Sys2Proof/Decode.lean ====
section
/-! DEFINITION. The two frame formats (R80, R81) and the checksum (R84); the decoder of an outgoing frame and of the
CMD port's operands (R86), the test the scan makes at one position (R131 to R135) and the inbound opcode map (R87);
the encoder; and the reading of an opcode-table word. -/

namespace Sys2Proof

/-! ### The checksum -/

/-- `Sum8` (R12): the sum of bytes modulo 256. -/
def sum8 : List Byte → Byte
  | [] => 0
  | b :: bs => b + sum8 bs

/-- `Cksum(fid, len, payload)` (R84). -/
def cksum (fid len : Byte) (payload : List Byte) : Byte := sum8 (fid :: len :: payload)

/-- `FrameValid(d, s)` (R83): at least 5 bytes, the direction header `d`, the length its length byte says, and the
checksum last. The command code is not looked at (R85). -/
def frameValid (d : Byte) : List Byte → Bool
  | h :: _ :: fid :: len :: rest =>
    h == d && rest.length == len.toNat + 1 && rest[len.toNat]? == some (cksum fid len (rest.take len.toNat))
  | _ => false

/-! ### The formats -/

/-- Format `OUT6` (R80): the six bytes of the outgoing frame of four operands. -/
def out6 (dir cmd fid val : Byte) : List Byte :=
  [dir, cmd, fid, Config.outLen, val, cksum fid Config.outLen [val]]

/-- Format `INVAR` (R81): the incoming frame of a field identifier and a payload. -/
def invar (fid : Byte) (payload : List Byte) : List Byte :=
  let len := BitVec.ofNat 8 payload.length
  Config.hdrIn :: Config.replyCmd :: fid :: len :: (payload ++ [cksum fid len payload])

/-! ### Outbound decoding -/

/-- The outbound instruction of the four operands on the CMD port (R86); the named forms take priority over `ENC`, and
`REQUEST_ALL`, `ENABLE`, `DISABLE` over the `GET` and `SET` they are (R92, the opcode table's note). Log 9. -/
def decodeCommand (dir cmd fid val : Byte) : Instr :=
  if dir = Config.hdrOut then
    if cmd = Config.cmdGet ∧ val = 0 then
      if fid = Config.fidAll then .requestAll else .get fid
    else if cmd = Config.cmdSet then
      if fid = Config.fidOutEn ∧ val = 1 then .enable
      else if fid = Config.fidOutEn ∧ val = 0 then .disable
      else .set fid val
    else if cmd = Config.cmdInitC0 then .initC0 fid val
    else if cmd = Config.cmdInitC1 then .initC1 fid val
    else .enc dir cmd fid val
  else .enc dir cmd fid val

/-- Why bytes are no `OUT6` frame. -/
inductive Out6Error where
  /-- Not six bytes (R80). -/
  | notSixBytes
  /-- The length byte is not 0x01 (R80). -/
  | lengthByte
deriving DecidableEq, Repr

/-- Reads an outgoing frame back to its instruction. The checksum byte is computed, not matched (the opcode table's
note on `ENC`). Log 9. -/
def decodeOut6 : List Byte → Except Out6Error Instr
  | [dir, cmd, fid, len, val, _] =>
    if len = Config.outLen then .ok (decodeCommand dir cmd fid val) else .error .lengthByte
  | _ => .error .notSixBytes

/-! ### Inbound decoding -/

/-- What the scan finds at one position (R131 to R135, R137). -/
inductive Verdict where
  /-- Step 1: fewer than 6 bytes remain (R131). -/
  | tooFew
  /-- Step 2: the header or the command code does not match (R132). -/
  | notStart
  /-- Step 3: the candidate's bytes have not all arrived (R133). -/
  | incomplete
  /-- Step 4, mismatch (R134): the candidate's field identifier, length, and the two checksums. -/
  | badChecksum (fid : Byte) (length : Nat) (computed received : Byte)
  /-- Step 4, match (R135): a valid frame. -/
  | frame (fid : Byte) (payload : List Byte)
deriving DecidableEq, Repr

/-- The tests of steps 1 to 4 on the bytes from the scan position on, in the order of R209. The two last arms of the
matches are excluded by the tests before them. -/
def examine (r : List Byte) : Verdict :=
  match r with
  | b0 :: b1 :: fid :: len :: rest =>
    if r.length < Config.minScan then .tooFew
    else if b0 ≠ Config.hdrIn ∨ b1 ≠ Config.replyCmd then .notStart
    else if r.length < len.toNat + Config.inOverhead then .incomplete
    else
      match rest.drop len.toNat with
      | received :: _ =>
        let payload := rest.take len.toNat
        let computed := cksum fid len payload
        if computed ≠ received then .badChecksum fid len.toNat computed received
        else .frame fid payload
      | [] => .incomplete
  | _ => .tooFew

/-- The inbound opcode map (R87, R160): the instruction of a valid frame. -/
def decodeReply (fid : Byte) (payload : List Byte) : Instr :=
  if fid = Config.fidVin then .rVin payload
  else if fid = Config.fidOut then .rOut payload
  else if fid = Config.fidTemp then .rTemp payload
  else if fid = Config.fidOutEn then .rOutEn payload
  else if fid = Config.fidModel then .rModel payload
  else if fid = Config.fidHwVer then .rHwVer payload
  else if fid = Config.fidFwVer then .rFwVer payload
  else if fid = Config.fidVMax then .rVMax payload
  else if fid = Config.fidIMax then .rIMax payload
  else if fid = Config.fidAll then .rAll payload
  else .rOther fid payload

/-- Why no instruction stands at a position, by the rule that says so. -/
inductive ReplyError where
  /-- R131. -/
  | tooFew
  /-- R132. -/
  | notStart
  /-- R133. -/
  | incomplete
  /-- R134. -/
  | checksum
deriving DecidableEq, Repr

/-- The inbound instruction that stands at the head of the bytes from the scan position on, or why none does. -/
def decodeFrame (r : List Byte) : Except ReplyError Instr :=
  match examine r with
  | .tooFew => .error .tooFew
  | .notStart => .error .notStart
  | .incomplete => .error .incomplete
  | .badChecksum .. => .error .checksum
  | .frame fid payload => .ok (decodeReply fid payload)

/-! ### The encoder -/

/-- The operands `(dir, cmd, fid, val)` an outbound instruction puts into its frame (R110 to R114, R191 to R193). -/
def Instr.operands : Instr → Option (Byte × Byte × Byte × Byte)
  | .enc dir cmd fid val => some (dir, cmd, fid, val)
  | .get fid => some (Config.hdrOut, Config.cmdGet, fid, 0)
  | .set fid val => some (Config.hdrOut, Config.cmdSet, fid, val)
  | .initC0 fid val => some (Config.hdrOut, Config.cmdInitC0, fid, val)
  | .initC1 fid val => some (Config.hdrOut, Config.cmdInitC1, fid, val)
  | .requestAll => some (Config.hdrOut, Config.cmdGet, Config.fidAll, 0)
  | .enable => some (Config.hdrOut, Config.cmdSet, Config.fidOutEn, 1)
  | .disable => some (Config.hdrOut, Config.cmdSet, Config.fidOutEn, 0)
  | .rVin .. | .rOut .. | .rTemp .. | .rOutEn .. | .rModel .. | .rHwVer .. | .rFwVer .. | .rVMax .. | .rIMax ..
  | .rAll .. | .rOther .. | .feed .. | .snap | .reset | .initialise | .poll => none

/-- The field identifier and payload of an inbound instruction's frame (R87). -/
def Instr.reply : Instr → Option (Byte × List Byte)
  | .rVin p => some (Config.fidVin, p)
  | .rOut p => some (Config.fidOut, p)
  | .rTemp p => some (Config.fidTemp, p)
  | .rOutEn p => some (Config.fidOutEn, p)
  | .rModel p => some (Config.fidModel, p)
  | .rHwVer p => some (Config.fidHwVer, p)
  | .rFwVer p => some (Config.fidFwVer, p)
  | .rVMax p => some (Config.fidVMax, p)
  | .rIMax p => some (Config.fidIMax, p)
  | .rAll p => some (Config.fidAll, p)
  | .rOther fid p => some (fid, p)
  | .enc .. | .get .. | .set .. | .initC0 .. | .initC1 .. | .requestAll | .enable | .disable
  | .feed .. | .snap | .reset | .initialise | .poll => none

/-- The bytes of an instruction's frame; none for the operations that have no bit pattern (FEED, SNAP, RESET,
INITIALIZE, POLL: the opcode table). -/
def encode (i : Instr) : Option (List Byte) :=
  match i.operands with
  | some (dir, cmd, fid, val) => some (out6 dir cmd fid val)
  | none =>
    match i.reply with
    | some (fid, payload) => some (invar fid payload)
    | none => none

/-- The instruction that a frame of `i` decodes to: `i`, but for an outbound instruction that spells a named form (R92,
the opcode table's note on `ENC`). -/
def Instr.canonical (i : Instr) : Instr :=
  match i.operands with
  | some (dir, cmd, fid, val) => decodeCommand dir cmd fid val
  | none => i

/-! ### Opcode-table words

A word's bits are numbered as the opcode table numbers them: bit 7 of the FIRST byte is the most significant bit. An
`OUT6` row gives 48 bits; an `INVAR` row gives the first 32 bits of its frame (direction, command code, field
identifier, length). The checksum is no operand and has no bits in either row, so it is computed. Log 7. -/

/-- The low `n` bytes of `w`, the most significant first. -/
def bytesOf : Nat → Nat → List Byte
  | 0, _ => []
  | n + 1, w => BitVec.ofNat 8 (w / 256 ^ n) :: bytesOf n w

/-- What a table word is: an `OUT6` word's four operands, the bytes of an `INVAR` frame, or neither. -/
inductive TableWord where
  | command (dir cmd fid val : Byte)
  | frame (bytes : List Byte)
  | neither (bytes : List Byte)
deriving DecidableEq, Repr

/-- An incoming frame from its first bytes: the payload bytes not given are zeros, and the checksum is computed. A
five-byte frame is followed by one zero byte, without which the scan does not look at it (R147). -/
def completeFrame : List Byte → List Byte
  | dir :: cmd :: fid :: len :: given =>
    let payload := (given ++ List.replicate len.toNat 0).take len.toNat
    dir :: cmd :: fid :: len :: (payload ++ [cksum fid len payload] ++ List.replicate (1 - len.toNat) 0)
  | short => short

/-- A table word of `nbits` bits, read as the table numbers it. Log 7. -/
def readTableWord (nbits w : Nat) : TableWord :=
  if nbits = 48 ∨ nbits < 32 then
    match bytesOf 6 w with
    | [dir, cmd, fid, len, val, cks] =>
      if len = Config.outLen then .command dir cmd fid val else .neither [dir, cmd, fid, len, val, cks]
    | bytes => .neither bytes
  else .frame (completeFrame (bytesOf (nbits / 8) w))

/-- The instruction the decoder reads from a table word. -/
def decodeTableWord (nbits w : Nat) : Option Instr :=
  match readTableWord nbits w with
  | .command dir cmd fid val => some (decodeCommand dir cmd fid val)
  | .frame bytes =>
    match decodeFrame bytes with
    | .ok i => some i
    | .error _ => none
  | .neither _ => none

end Sys2Proof
end

