-- ==== Sys2Proof/Machine/State.lean ====
section
/-! DEFINITION. The state of the block, its ports, the reasons a step can stop, and the state after reset. -/

namespace Sys2Proof.Machine

/-- The DeviceState record `DS`: the general registers (R21), in the order of their indices. -/
structure DeviceState where
  /-- 0, `set_voltage`. -/
  setVoltage : Pattern
  /-- 1, `set_current`. -/
  setCurrent : Pattern
  /-- 2, `input_voltage`. -/
  inputVoltage : Pattern
  /-- 3, `output_voltage`. -/
  outputVoltage : Pattern
  /-- 4, `output_current`. -/
  outputCurrent : Pattern
  /-- 5, `output_power`. -/
  outputPower : Pattern
  /-- 6, `output_closed` (R23). -/
  outputClosed : Bool
  /-- 7, `upperlimit_voltage`. -/
  upperlimitVoltage : Pattern
  /-- 8, `upperlimit_current`. -/
  upperlimitCurrent : Pattern
  /-- 9, `temperature`. -/
  temperature : Pattern
deriving DecidableEq, Repr

/-- The events of a decode pass and what each carries (R200). Log 11. -/
inductive Event where
  /-- `EV_CHECKSUM_ERROR` (R201). -/
  | checksumError (fid : Byte) (length : Nat) (computed received : Byte)
  /-- `EV_UNRECOGNIZED_FIELD` (R202). -/
  | unrecognizedField (fid : Byte) (length : Nat)
  /-- `EV_TEXT_ERROR` (R203). -/
  | textError (fid : Byte)
  /-- `EV_SHORT_PAYLOAD` (R204). -/
  | shortPayload (fid : Byte) (length : Nat)
  /-- `EV_TEXT_REPORT` (R205). -/
  | textReport (fid : Byte) (text : List Byte)
deriving DecidableEq, Repr

/-- An event's code (R200). -/
def Event.code : Event → Nat
  | .checksumError .. => 1
  | .unrecognizedField .. => 2
  | .textError .. => 3
  | .shortPayload .. => 4
  | .textReport .. => 5

/-- The registers that exist only during a decode pass (R20): the scan cursor `pos` (R28), `nframes` (R29) and the
event list `EVT` (R36). `updated` is computed from `nframes` (R29). -/
structure Pass where
  pos : Nat
  nframes : Nat
  evt : List Event
deriving DecidableEq, Repr

/-- What every pass starts from (R34, R130), and what the model keeps between passes. Log 1. -/
def Pass.start : Pass := { pos := 0, nframes := 0, evt := [] }

/-- What a pass presents on RES (R136). -/
structure PassResult where
  updated : Bool
  nframes : Nat
  evt : List Event
deriving DecidableEq, Repr

/-- One operation of the host (R243), as it is presented on a port: a command is four bytes on CMD (R16), a feed a
byte sequence on RX. -/
inductive HostOp where
  | cmd (dir cmd fid val : Byte)
  | feed (bytes : List Byte)
  | snap
  | reset
  | initialise
  | poll
deriving DecidableEq, Repr

/-- The result of one transport read (R194). -/
inductive Read where
  /-- The read returned these bytes, perhaps none. -/
  | bytes (bytes : List Byte)
  /-- The read failed. -/
  | failed
deriving DecidableEq, Repr

/-- The state. `ds` and `buf` are the block's two pieces of state (R20) and `pass` the registers of a pass; the rest
is the outside of the block: what the host and the transport will do next (log 5), and what has crossed the output
ports so far, which nothing in the block reads (log 6). -/
structure State where
  /-- `DS` (R21). -/
  ds : DeviceState
  /-- `BUF` (R26), oldest byte first. Log 2. -/
  buf : List Byte
  /-- The registers of a decode pass. -/
  pass : Pass
  /-- The host's operations not yet performed, the next one first. -/
  host : List HostOp
  /-- The results of the transport's next reads, the next one first. -/
  transport : List Read
  /-- The frames presented on TX, oldest first (R116). -/
  tx : List (List Byte)
  /-- The results presented on RES, oldest first (R136). -/
  res : List PassResult
  /-- The DeviceStates presented on SNAP, oldest first (R35). -/
  snap : List DeviceState
  /-- The booleans POLL returned, oldest first (R194). -/
  polled : List Bool
deriving DecidableEq, Repr

/-- The faults: none. Nobody raises one, and every byte sequence fed is given a defined result (R14). -/
inductive Fault where
deriving DecidableEq, Repr

/-- The refusals. -/
inductive Refusal where
  /-- Raised by `exec` for an instruction that has no meaning yet; no arm raises it now. Safe: the machine stops. -/
  | notModelled (mnemonic : String)
  /-- Raised by FEED and POLL for a byte sequence longer than MAX_FEED, which is outside the interface and has no
  meaning (R14, U5). Log 3. Safe: the machine stops. -/
  | feedTooLong (length : Nat)
deriving DecidableEq, Repr

/-- The reset values of `DS` (R34). -/
def DeviceState.reset : DeviceState where
  setVoltage := 0
  setCurrent := 0
  inputVoltage := 0
  outputVoltage := 0
  outputCurrent := 0
  outputPower := 0
  outputClosed := false
  upperlimitVoltage := 0
  upperlimitCurrent := 0
  temperature := 0

/-- The machine right after reset (R34, R231): zeroed fields, an empty buffer, no pass, and nothing at any port. -/
def State.reset : State where
  ds := DeviceState.reset
  buf := []
  pass := Pass.start
  host := []
  transport := []
  tx := []
  res := []
  snap := []
  polled := []

end Sys2Proof.Machine
end

