-- ==== Sys2Proof/Machine/Flags.lean ====
section
/-! DEFINITION. The result flags of a decode pass (R29). -/

namespace Sys2Proof.Machine

/-- `updated` is `nframes > 0` (R29). Log 15. -/
def Pass.updated (p : Pass) : Bool := decide (0 < p.nframes)

/-- One more frame consumed (R135). -/
def Pass.countFrame (p : Pass) : Pass := { p with nframes := p.nframes + 1 }

/-- What the pass presents on RES (R136). -/
def Pass.result (p : Pass) : PassResult := { updated := p.updated, nframes := p.nframes, evt := p.evt }

end Sys2Proof.Machine
end

