-- ==== Sys2Proof/Machine/Ops.lean ====
section
/-! DEFINITION. The named operations over the state: the primitives of R13, the recovery from an event (R207), the end
of a frame (R135), and the fetch of the host's next operation. -/

namespace Sys2Proof.Machine

/-! ### The StreamBuffer -/

/-- `BufAppend` (R59). -/
def bufAppend (bytes : List Byte) (s : State) : State := { s with buf := s.buf ++ bytes }

/-- `BufDrop` (R59). -/
def bufDrop (k : Nat) (s : State) : State := { s with buf := s.buf.drop k }

/-- The bytes from the scan position on (R28). -/
def rest (s : State) : List Byte := s.buf.drop s.pass.pos

/-- The buffer as cells of the buffer space (R50): the byte at each address `0 .. len(BUF)-1`. Log 2. -/
def memoryCells (s : State) : List Host.Cell := s.buf.zipIdx.map fun c => (c.2, c.1)

/-- The one form of a list of cells: addresses strictly rising. -/
abbrev Memory.wf (cells : List Host.Cell) : Prop := (cells.map Prod.fst).Pairwise (· < ·)

/-! ### The registers of a pass -/

/-- `pos <- pos + k` (R28). -/
def advance (k : Nat) (s : State) : State := { s with pass := { s.pass with pos := s.pass.pos + k } }

/-- `raise EV` (R13). -/
def raise (e : Event) (s : State) : State := { s with pass := { s.pass with evt := s.pass.evt ++ [e] } }

/-- `DS.f <- v`, for the fields of a whole rule at once (R13, R56). -/
def writeDs (d : DeviceState) (s : State) : State := { s with ds := d }

/-- One-byte resynchronisation (R132, R207). -/
def resync (s : State) : State := advance 1 s

/-- The exception of the scan (R134, R207): the event is recorded, nothing is saved, no mode changes, and control goes
on one byte further. The four dispatch events are recorded by `raise` alone and their frame is consumed normally. -/
def takeChecksumError (fid : Byte) (length : Nat) (computed received : Byte) (s : State) : State :=
  resync (raise (.checksumError fid length computed received) s)

/-- The end of a valid frame (R135): `pos <- pos + length + 5`, `nframes <- nframes + 1`. -/
def consumeFrame (length : Nat) (s : State) : State :=
  let t := advance (length + Config.inOverhead) s
  { t with pass := t.pass.countFrame }

/-- The start of a pass (R130): the bytes are appended and the registers of the pass initialised. -/
def startPass (bytes : List Byte) (s : State) : State := { bufAppend bytes s with pass := Pass.start }

/-- Step 5 (R136): compaction, and the result on RES; the registers of the pass are then forgotten. Log 1. -/
def finishPass (s : State) : State :=
  let t := bufDrop s.pass.pos s
  { t with res := t.res ++ [s.pass.result], pass := Pass.start }

/-! ### The other ports -/

/-- `Tx` (R13): one frame on TX (R116). -/
def transmit (frame : List Byte) (s : State) : State := { s with tx := s.tx ++ [frame] }

/-- The ten fields on SNAP (R35). -/
def presentSnap (s : State) : State := { s with snap := s.snap ++ [s.ds] }

/-- The boolean a POLL returns (R194). -/
def returnPoll (b : Bool) (s : State) : State := { s with polled := s.polled ++ [b] }

/-! ### Fetch -/

/-- The instruction of a host operation: a command is decoded from its operand bytes (R16, R86). -/
def decodeOp : HostOp → Instr
  | .cmd dir cmd fid val => decodeCommand dir cmd fid val
  | .feed bytes => .feed bytes
  | .snap => .snap
  | .reset => .reset
  | .initialise => .initialise
  | .poll => .poll

/-- The host's next operation, taken off the list of those not yet performed; none when the host asks for nothing.
Log 5. -/
def fetch (s : State) : Option (Instr × State) :=
  match s.host with
  | [] => none
  | op :: ops => some (decodeOp op, { s with host := ops })

/-- The state with an opcode-table word where the machine takes its next instruction from: an `OUT6` word on CMD; any
other bytes in the buffer, with a FEED of no bytes next, whose pass runs the instruction they are. Log 7. -/
def placeWord (word : TableWord) (s : State) : State :=
  match word with
  | .command dir cmd fid val => { s with host := .cmd dir cmd fid val :: s.host }
  | .frame bytes => { s with buf := bytes, host := .feed [] :: s.host }
  | .neither bytes => { s with buf := bytes, host := .feed [] :: s.host }

end Sys2Proof.Machine
end

