-- ==== Sys2Proof/Machine/Encoder.lean ====
section
/-! DEFINITION. The meanings of the outbound instructions (R110 to R114): each presents one six-byte frame on TX. -/

namespace Sys2Proof.Machine

/-- `ENC dir, cmd, fid, val` (R110). -/
def execEnc (dir cmd fid val : Byte) (s : State) : Host.Outcome State Fault Refusal :=
  .next (transmit (out6 dir cmd fid val) s)

/-- `GET fid` (R111): `ENC 0xF1, 0xA1, fid, 0x00`. -/
def execGet (fid : Byte) (s : State) : Host.Outcome State Fault Refusal :=
  .next (transmit (out6 Config.hdrOut Config.cmdGet fid 0) s)

/-- `SET fid, val` (R112): `ENC 0xF1, 0xB1, fid, val`. -/
def execSet (fid val : Byte) (s : State) : Host.Outcome State Fault Refusal :=
  .next (transmit (out6 Config.hdrOut Config.cmdSet fid val) s)

/-- `INITC0 fid, val` (R113): `ENC 0xF1, 0xC0, fid, val`. -/
def execInitC0 (fid val : Byte) (s : State) : Host.Outcome State Fault Refusal :=
  .next (transmit (out6 Config.hdrOut Config.cmdInitC0 fid val) s)

/-- `INITC1 fid, val` (R114): `ENC 0xF1, 0xC1, fid, val`. -/
def execInitC1 (fid val : Byte) (s : State) : Host.Outcome State Fault Refusal :=
  .next (transmit (out6 Config.hdrOut Config.cmdInitC1 fid val) s)

end Sys2Proof.Machine
end

