-- ==== Sys2Proof/Machine/Operands.lean ====
section
/-! DEFINITION. The operand forms of an inbound instruction (R88): a little-endian float, a boolean byte, a text. Each
read of a payload carries the proof that it is in bounds (R55). -/

namespace Sys2Proof.Machine

/-- `F32LE` (R52): the pattern of four bytes, the least significant first. -/
def f32LE (b0 b1 b2 b3 : Byte) : Pattern :=
  BitVec.ofNat 32 (b0.toNat + 256 * b1.toNat + 65536 * b2.toNat + 16777216 * b3.toNat)

/-- `F32At(off)` (R52): the float at payload offset `off`, defined only where four bytes stand there. Log 16. -/
def f32At (payload : List Byte) (off : Nat) (h : off + 4 ≤ payload.length) : Pattern :=
  f32LE payload[off] payload[off + 1] payload[off + 2] payload[off + 3]

/-- `Bool1` (R53). -/
def bool1 (b : Byte) : Bool := b == 0x01

/-- Whether a payload is well-formed text (R53, R173). Log 14. -/
def isAscii (payload : List Byte) : Bool := payload.all fun b => decide (b.toNat ≤ 0x7F)

end Sys2Proof.Machine
end

