-- ==== Sys2Proof/Machine/Inbound.lean ====
section
/-! DEFINITION. The inbound instructions (R160 to R176). A `reply…` is the dispatch rule of one field identifier: it
writes `DS` or raises its event, and nothing else (R160). The meaning of the instruction is that rule followed by the
consumption of the frame (R135). -/

namespace Sys2Proof.Machine

/-! ### Shared rules -/

/-- A payload too short for its rule (R161): nothing is written. Log 12. -/
def shortPayload (fid : Byte) (payload : List Byte) (s : State) : State :=
  raise (.shortPayload fid payload.length) s

/-- A text field (R166 to R168, R173): the text is reported, or is malformed. -/
def textField (fid : Byte) (payload : List Byte) (s : State) : State :=
  if isAscii payload then raise (.textReport fid payload) s else raise (.textError fid) s

/-! ### The dispatch rules -/

/-- Field 192 (R162). -/
def replyVin (payload : List Byte) (s : State) : State :=
  if h : 4 ≤ payload.length then writeDs { s.ds with inputVoltage := f32At payload 0 (by omega) } s
  else shortPayload Config.fidVin payload s

/-- Field 195 (R163). -/
def replyOut (payload : List Byte) (s : State) : State :=
  if h : 12 ≤ payload.length then
    writeDs { s.ds with
      outputVoltage := f32At payload 0 (by omega)
      outputCurrent := f32At payload 4 (by omega)
      outputPower := f32At payload 8 (by omega) } s
  else shortPayload Config.fidOut payload s

/-- Field 196 (R164). -/
def replyTemp (payload : List Byte) (s : State) : State :=
  if h : 4 ≤ payload.length then writeDs { s.ds with temperature := f32At payload 0 (by omega) } s
  else shortPayload Config.fidTemp payload s

/-- Field 219 (R165). -/
def replyOutEn (payload : List Byte) (s : State) : State :=
  if h : 1 ≤ payload.length then writeDs { s.ds with outputClosed := bool1 payload[0] } s
  else shortPayload Config.fidOutEn payload s

/-- Field 222 (R166). -/
def replyModel (payload : List Byte) (s : State) : State := textField Config.fidModel payload s

/-- Field 223 (R167). -/
def replyHwVer (payload : List Byte) (s : State) : State := textField Config.fidHwVer payload s

/-- Field 224 (R168). -/
def replyFwVer (payload : List Byte) (s : State) : State := textField Config.fidFwVer payload s

/-- Field 226 (R169). -/
def replyVMax (payload : List Byte) (s : State) : State :=
  if h : 4 ≤ payload.length then writeDs { s.ds with upperlimitVoltage := f32At payload 0 (by omega) } s
  else shortPayload Config.fidVMax payload s

/-- Field 227 (R170). -/
def replyIMax (payload : List Byte) (s : State) : State :=
  if h : 4 ≤ payload.length then writeDs { s.ds with upperlimitCurrent := f32At payload 0 (by omega) } s
  else shortPayload Config.fidIMax payload s

/-- Field 255, the composite snapshot (R171): `upperlimit_voltage` is written from offset 111 and then from offset 115,
and `upperlimit_current` is not written (R176). Log 20. -/
def replyAll (payload : List Byte) (s : State) : State :=
  if h : 119 ≤ payload.length then
    let first := { s.ds with
      inputVoltage := f32At payload 0 (by omega)
      setVoltage := f32At payload 4 (by omega)
      setCurrent := f32At payload 8 (by omega)
      outputVoltage := f32At payload 12 (by omega)
      outputCurrent := f32At payload 16 (by omega)
      outputPower := f32At payload 20 (by omega)
      temperature := f32At payload 24 (by omega)
      outputClosed := bool1 payload[107]
      upperlimitVoltage := f32At payload 111 (by omega) }
    writeDs { first with upperlimitVoltage := f32At payload 115 (by omega) } s
  else shortPayload Config.fidAll payload s

/-- Any other field (R172). -/
def replyOther (fid : Byte) (payload : List Byte) (s : State) : State :=
  raise (.unrecognizedField fid payload.length) s

/-- `Dispatch(fid, payload)` (R160, R174): the rule of the inbound opcode map, by equality of the identifier. -/
def dispatch (fid : Byte) (payload : List Byte) (s : State) : State :=
  if fid = Config.fidVin then replyVin payload s
  else if fid = Config.fidOut then replyOut payload s
  else if fid = Config.fidTemp then replyTemp payload s
  else if fid = Config.fidOutEn then replyOutEn payload s
  else if fid = Config.fidModel then replyModel payload s
  else if fid = Config.fidHwVer then replyHwVer payload s
  else if fid = Config.fidFwVer then replyFwVer payload s
  else if fid = Config.fidVMax then replyVMax payload s
  else if fid = Config.fidIMax then replyIMax payload s
  else if fid = Config.fidAll then replyAll payload s
  else replyOther fid payload s

/-! ### The meanings -/

/-- `R.VIN` (R162). -/
def execRVin (payload : List Byte) (s : State) : Host.Outcome State Fault Refusal :=
  .next (consumeFrame payload.length (replyVin payload s))

/-- `R.OUT` (R163). -/
def execROut (payload : List Byte) (s : State) : Host.Outcome State Fault Refusal :=
  .next (consumeFrame payload.length (replyOut payload s))

/-- `R.TEMP` (R164). -/
def execRTemp (payload : List Byte) (s : State) : Host.Outcome State Fault Refusal :=
  .next (consumeFrame payload.length (replyTemp payload s))

/-- `R.OUTEN` (R165). -/
def execROutEn (payload : List Byte) (s : State) : Host.Outcome State Fault Refusal :=
  .next (consumeFrame payload.length (replyOutEn payload s))

/-- `R.MODEL` (R166). -/
def execRModel (payload : List Byte) (s : State) : Host.Outcome State Fault Refusal :=
  .next (consumeFrame payload.length (replyModel payload s))

/-- `R.HWVER` (R167). -/
def execRHwVer (payload : List Byte) (s : State) : Host.Outcome State Fault Refusal :=
  .next (consumeFrame payload.length (replyHwVer payload s))

/-- `R.FWVER` (R168). -/
def execRFwVer (payload : List Byte) (s : State) : Host.Outcome State Fault Refusal :=
  .next (consumeFrame payload.length (replyFwVer payload s))

/-- `R.VMAX` (R169). -/
def execRVMax (payload : List Byte) (s : State) : Host.Outcome State Fault Refusal :=
  .next (consumeFrame payload.length (replyVMax payload s))

/-- `R.IMAX` (R170). -/
def execRIMax (payload : List Byte) (s : State) : Host.Outcome State Fault Refusal :=
  .next (consumeFrame payload.length (replyIMax payload s))

/-- `R.ALL` (R171). -/
def execRAll (payload : List Byte) (s : State) : Host.Outcome State Fault Refusal :=
  .next (consumeFrame payload.length (replyAll payload s))

/-- `R.OTHER` (R172). -/
def execROther (fid : Byte) (payload : List Byte) (s : State) : Host.Outcome State Fault Refusal :=
  .next (consumeFrame payload.length (replyOther fid payload s))

end Sys2Proof.Machine
end

