-- ==== Sys2Proof/Machine/Stream.lean ====
section
/-! DEFINITION. The decode pass (R130 to R136) and the meaning of FEED. -/

namespace Sys2Proof.Machine

/-- Steps 1 to 4 at one position (R131 to R135); none where a step says stop. -/
def scanStep (s : State) : Option State :=
  match examine (rest s) with
  | .tooFew => none
  | .notStart => some (resync s)
  | .incomplete => none
  | .badChecksum fid length computed received => some (takeChecksumError fid length computed received s)
  | .frame fid payload => some (consumeFrame payload.length (dispatch fid payload s))

/-- Steps 1 to 4 repeated until a step says stop, at most `fuel` times. -/
def scan : Nat → State → State
  | 0, s => s
  | fuel + 1, s =>
    match scanStep s with
    | none => s
    | some t => scan fuel t

/-- A pass up to step 5 (R130): every repetition moves on by a byte or more, so as many as there are bytes are enough
(R142). -/
def runPass (bytes : List Byte) (s : State) : State :=
  let t := startPass bytes s
  scan t.buf.length t

/-- A whole pass (R130, R136). Atomic: it is one operation (R56). Log 17. -/
def feedPass (bytes : List Byte) (s : State) : State := finishPass (runPass bytes s)

/-- `FEED bytes` (R130); a byte sequence longer than MAX_FEED is refused (R14). Log 3. -/
def execFeed (bytes : List Byte) (s : State) : Host.Outcome State Fault Refusal :=
  if Config.feedFits bytes then .next (feedPass bytes s) else .refused (.feedTooLong bytes.length)

end Sys2Proof.Machine
end

