-- ==== Sys2Proof/Machine/Controller.lean ====
section
/-! DEFINITION. The meanings of the ProtocolController's operations (R190 to R194). -/

namespace Sys2Proof.Machine

/-- `REQUEST_ALL` (R191): `GET 255`. -/
def execRequestAll (s : State) : Host.Outcome State Fault Refusal :=
  .next (transmit (out6 Config.hdrOut Config.cmdGet Config.fidAll 0) s)

/-- `ENABLE` (R192): `SET 219, 1`. -/
def execEnable (s : State) : Host.Outcome State Fault Refusal :=
  .next (transmit (out6 Config.hdrOut Config.cmdSet Config.fidOutEn 1) s)

/-- `DISABLE` (R193): `SET 219, 0`. -/
def execDisable (s : State) : Host.Outcome State Fault Refusal :=
  .next (transmit (out6 Config.hdrOut Config.cmdSet Config.fidOutEn 0) s)

/-- The frame of one entry of `INIT_SEQ` (R190). -/
def initFrame (f : Config.InitFrame) : List Byte := out6 Config.hdrOut f.code.toByte f.fid f.val

/-- `INITIALIZE` (R190): the frames of `INIT_SEQ`, in order. Log 4. -/
def execInitialise (s : State) : Host.Outcome State Fault Refusal :=
  .next (Config.initSeq.foldl (fun t f => transmit (initFrame f) t) s)

/-- The pass of a POLL whose read returned bytes, and the boolean it returns (R194). -/
def pollPass (bytes : List Byte) (s : State) : State :=
  let t := runPass bytes s
  returnPoll t.pass.updated (finishPass t)

/-- `POLL` (R194): one read of the transport; a failed or empty read returns false and changes nothing else. A transport
with nothing waiting reads as no bytes. Log 8. -/
def execPoll (s : State) : Host.Outcome State Fault Refusal :=
  match s.transport with
  | [] => .next (returnPoll false s)
  | .failed :: reads => .next (returnPoll false { s with transport := reads })
  | .bytes bytes :: reads =>
    if bytes = [] then .next (returnPoll false { s with transport := reads })
    else if Config.feedFits bytes then .next (pollPass bytes { s with transport := reads })
    else .refused (.feedTooLong bytes.length)

end Sys2Proof.Machine
end

