-- ==== Sys2Proof/Machine/Ports.lean ====
section
/-! DEFINITION. The meanings of the port operations SNAP (R35) and RESET (R230). -/

namespace Sys2Proof.Machine

/-- `SNAP` (R35): the ten fields are presented; no side effect. -/
def execSnap (s : State) : Host.Outcome State Fault Refusal := .next (presentSnap s)

/-- `RESET` (R230): `DS` to its reset values, `BUF` emptied; nothing on TX or RES. Log 19. -/
def execReset (s : State) : Host.Outcome State Fault Refusal :=
  .next { s with ds := DeviceState.reset, buf := [] }

end Sys2Proof.Machine
end

