-- ==== Sys2Proof/Machine/Dispatch.lean ====
section
/-! DEFINITION. What each instruction does: one arm per constructor. -/

namespace Sys2Proof.Machine

/-- The meaning of an instruction. -/
def exec (i : Instr) (s : State) : Host.Outcome State Fault Refusal :=
  match i with
  | .enc dir cmd fid val => Sys2Proof.Machine.execEnc dir cmd fid val s
  | .get fid => Sys2Proof.Machine.execGet fid s
  | .set fid val => Sys2Proof.Machine.execSet fid val s
  | .initC0 fid val => Sys2Proof.Machine.execInitC0 fid val s
  | .initC1 fid val => Sys2Proof.Machine.execInitC1 fid val s
  | .requestAll => Sys2Proof.Machine.execRequestAll s
  | .enable => Sys2Proof.Machine.execEnable s
  | .disable => Sys2Proof.Machine.execDisable s
  | .rVin payload => Sys2Proof.Machine.execRVin payload s
  | .rOut payload => Sys2Proof.Machine.execROut payload s
  | .rTemp payload => Sys2Proof.Machine.execRTemp payload s
  | .rOutEn payload => Sys2Proof.Machine.execROutEn payload s
  | .rModel payload => Sys2Proof.Machine.execRModel payload s
  | .rHwVer payload => Sys2Proof.Machine.execRHwVer payload s
  | .rFwVer payload => Sys2Proof.Machine.execRFwVer payload s
  | .rVMax payload => Sys2Proof.Machine.execRVMax payload s
  | .rIMax payload => Sys2Proof.Machine.execRIMax payload s
  | .rAll payload => Sys2Proof.Machine.execRAll payload s
  | .rOther fid payload => Sys2Proof.Machine.execROther fid payload s
  | .feed bytes => Sys2Proof.Machine.execFeed bytes s
  | .snap => Sys2Proof.Machine.execSnap s
  | .reset => Sys2Proof.Machine.execReset s
  | .initialise => Sys2Proof.Machine.execInitialise s
  | .poll => Sys2Proof.Machine.execPoll s

end Sys2Proof.Machine
end

