-- ==== Sys2Proof/Machine/Step.lean ====
section
/-! DEFINITION. One step: the host's next operation (R243), performed whole (R56); with none, the block is idle (R213). -/

namespace Sys2Proof.Machine

/-- One step of the machine. -/
def step (s : State) : Host.Outcome State Fault Refusal :=
  match fetch s with
  | none => .next s
  | some (i, t) => exec i t

/-- The state with an opcode-table word placed as the next instruction. Log 7. -/
def State.withFetchWord (s : State) (nbits w : Nat) : State := placeWord (readTableWord nbits w) s

end Sys2Proof.Machine
end

