-- ==== Sys2Proof/Safety.lean ====
section
/-! DEFINITION. The terms claims are stated in: what holds between operations, the reference pass of R139, and the list
of frames a pass finds. -/

namespace Sys2Proof.Machine

/-- A residual: bytes on which a pass stops at position 0 (R131, R133, R141). -/
abbrev settled (buf : List Byte) : Prop := examine buf = .tooFew ∨ examine buf = .incomplete

/-- A frame as TX carries it: six bytes, valid for the direction it names (R80, R83). -/
abbrev txFrame (frame : List Byte) : Prop := frame.length = 6 ∧ ∃ dir, frameValid dir frame = true

/-- What holds between operations: the buffer holds a residual, no pass is in progress, TX has carried six-byte valid
frames, and every result on RES had `updated` exactly when it counted a frame (R29). -/
def State.Inv (s : State) : Prop :=
  settled s.buf ∧ s.pass = Pass.start ∧ (∀ f ∈ s.tx, txFrame f) ∧ ∀ r ∈ s.res, (r.updated = true ↔ 0 < r.nframes)

/-- The reset machine before a host and a transport that will do as listed (log 5). -/
def State.powerUp (ops : List HostOp) (reads : List Read) : State :=
  { State.reset with host := ops, transport := reads }

/-- `Dispatch(D, fid, payload)` as R139 has it: the new DeviceState and the events raised. -/
def dispatchEffect (d : DeviceState) (fid : Byte) (payload : List Byte) : DeviceState × List Event :=
  let t := dispatch fid payload { State.reset with ds := d }
  (t.ds, t.pass.evt)

/-- `Scan(B, p, D, n, E)` of R139, one constructor per line of it: `Scans B p D n E B' D' n' E'` says that it gives
`(B', D', n', E')`. -/
inductive Scans : List Byte → Nat → DeviceState → Nat → List Event →
    List Byte → DeviceState → Nat → List Event → Prop where
  /-- R131. -/
  | stop {B p D n E} : B.length - p < 6 → Scans B p D n E (B.drop p) D n E
  /-- R132. -/
  | skip {B p D n E B' D' n' E'} : ¬ B.length - p < 6 → (B[p]? ≠ some 0xF0 ∨ B[p + 1]? ≠ some 0xA1) →
      Scans B (p + 1) D n E B' D' n' E' → Scans B p D n E B' D' n' E'
  /-- R133. -/
  | wait {B p D n E} {L : Byte} : ¬ B.length - p < 6 → B[p]? = some 0xF0 → B[p + 1]? = some 0xA1 →
      B[p + 3]? = some L → B.length - p < L.toNat + 5 → Scans B p D n E (B.drop p) D n E
  /-- R134. -/
  | mismatch {B p D n E B' D' n' E'} {fid L c r : Byte} : ¬ B.length - p < 6 → B[p]? = some 0xF0 →
      B[p + 1]? = some 0xA1 → B[p + 2]? = some fid → B[p + 3]? = some L → ¬ B.length - p < L.toNat + 5 →
      c = sum8 (B.extract (p + 2) (p + 4 + L.toNat)) → B[p + 4 + L.toNat]? = some r → c ≠ r →
      Scans B (p + 1) D n (E ++ [.checksumError fid L.toNat c r]) B' D' n' E' → Scans B p D n E B' D' n' E'
  /-- R135. -/
  | apply {B p D n E B' D' n' E'} {fid L c : Byte} {payload : List Byte} : ¬ B.length - p < 6 → B[p]? = some 0xF0 →
      B[p + 1]? = some 0xA1 → B[p + 2]? = some fid → B[p + 3]? = some L → ¬ B.length - p < L.toNat + 5 →
      c = sum8 (B.extract (p + 2) (p + 4 + L.toNat)) → B[p + 4 + L.toNat]? = some c →
      payload = B.extract (p + 4) (p + 4 + L.toNat) →
      Scans B (p + L.toNat + 5) (dispatchEffect D fid payload).1 (n + 1) (E ++ (dispatchEffect D fid payload).2)
        B' D' n' E' →
      Scans B p D n E B' D' n' E'

/-- The checksum-valid frames a scan of these bytes finds, in order, at most `fuel` positions on (R210). -/
def framesIn : Nat → List Byte → List (Byte × List Byte)
  | 0, _ => []
  | fuel + 1, b =>
    match examine b with
    | .tooFew | .incomplete => []
    | .notStart | .badChecksum .. => framesIn fuel (b.drop 1)
    | .frame fid payload => (fid, payload) :: framesIn fuel (b.drop (payload.length + 5))

/-- No position of `bytes` below `n` starts a candidate: there is no `F0 A1` there (R145, R146). -/
abbrev noCandidate (n : Nat) (bytes : List Byte) : Prop :=
  ∀ k < n, ¬ (bytes[k]? = some 0xF0 ∧ bytes[k + 1]? = some 0xA1)

/-- The state after a frame of that payload length that leaves DS at `d` and raises `events` (R135): the only things a
frame may change. -/
def State.afterFrame (s : State) (d : DeviceState) (length : Nat) (events : List Event) : State :=
  { s with
    ds := d
    pass := { pos := s.pass.pos + length + 5, nframes := s.pass.nframes + 1, evt := s.pass.evt ++ events } }

/-- The state without what has crossed the output ports (log 6). -/
def State.withoutOutputs (s : State) : State := { s with tx := [], res := [], snap := [], polled := [] }

end Sys2Proof.Machine

namespace Sys2Proof

/-- `need` (R161): the least payload length at which an inbound instruction's rule reads its payload; 0 for the text
fields and for `R.OTHER`, and for every other instruction. -/
def Instr.need : Instr → Nat
  | .rVin .. | .rTemp .. | .rVMax .. | .rIMax .. => 4
  | .rOut .. => 12
  | .rOutEn .. => 1
  | .rAll .. => 119
  | .rModel .. | .rHwVer .. | .rFwVer .. | .rOther .. => 0
  | .enc .. | .get .. | .set .. | .initC0 .. | .initC1 .. | .requestAll | .enable | .disable
  | .feed .. | .snap | .reset | .initialise | .poll => 0

end Sys2Proof
end

