-- ==== Sys2Proof/Certificates/Slice0/Obligations.lean ====
section
/-! DEFINITION. The statements for the provers. A statement about `exec` whose conclusion is an equation with `.next`
says that the instruction completes, and in which state; that state is written as the old one with the fields that
change, so it is the instruction's frame as well. -/

open Sys2Proof Sys2Proof.Machine

/-! ### The outbound instructions -/

/-- R110 (that any direction byte is framed is the spec's decision D18): `ENC` presents its six bytes on TX, the last
the sum of the field identifier, 1 and the value modulo 256, and changes nothing else; that byte is 0 exactly when
identifier and value add up to 255. -/
def Obligations.EncPresentsItsFrame : Prop :=
  ∀ (dir cmd fid val : Byte) (s : State),
    exec (.enc dir cmd fid val) s = .next { s with
      tx := s.tx ++ [[dir, cmd, fid, 0x01, val, BitVec.ofNat 8 ((fid.toNat + 1 + val.toNat) % 256)]] } ∧
    ((fid.toNat + 1 + val.toNat) % 256 = 0 ↔ fid.toNat + val.toNat = 255)

/-- R111 to R114: `GET`, `SET`, `INITC0`, `INITC1` present the frames of `ENC` with the direction 0xF1, their command
codes, and for `GET` the value 0, and change nothing else. -/
def Obligations.NamedCommandsPresentTheirFrames : Prop :=
  ∀ (fid val : Byte) (s : State),
    exec (.get fid) s = .next { s with
      tx := s.tx ++ [[0xF1, 0xA1, fid, 0x01, 0x00, BitVec.ofNat 8 ((fid.toNat + 1) % 256)]] } ∧
    exec (.set fid val) s = .next { s with
      tx := s.tx ++ [[0xF1, 0xB1, fid, 0x01, val, BitVec.ofNat 8 ((fid.toNat + 1 + val.toNat) % 256)]] } ∧
    exec (.initC0 fid val) s = .next { s with
      tx := s.tx ++ [[0xF1, 0xC0, fid, 0x01, val, BitVec.ofNat 8 ((fid.toNat + 1 + val.toNat) % 256)]] } ∧
    exec (.initC1 fid val) s = .next { s with
      tx := s.tx ++ [[0xF1, 0xC1, fid, 0x01, val, BitVec.ofNat 8 ((fid.toNat + 1 + val.toNat) % 256)]] }

/-- R191, R192: the bytes of `REQUEST_ALL` and `ENABLE`, which change nothing else. -/
def Obligations.RequestAllAndEnablePresentTheirFrames : Prop :=
  ∀ s : State,
    exec .requestAll s = .next { s with tx := s.tx ++ [[0xF1, 0xA1, 0xFF, 0x01, 0x00, 0x00]] } ∧
    exec .enable s = .next { s with tx := s.tx ++ [[0xF1, 0xB1, 0xDB, 0x01, 0x01, 0xDD]] }

/-- R193, whose bytes the spec derives from R112: the bytes of `DISABLE`, which changes nothing else. -/
def Obligations.DisablePresentsItsFrame : Prop :=
  ∀ s : State, exec .disable s = .next { s with tx := s.tx ++ [[0xF1, 0xB1, 0xDB, 0x01, 0x00, 0xDC]] }

/-- R190 (a), (c), (d), (e) and D11: `INITIALIZE` presents one fixed sequence of frames, a head that holds at least
one 0xC0 and one 0xC1 frame and only the four command codes, then GET 222, 223, 224, 255; it changes nothing else. The
head is the model's free value (log 4). -/
def Obligations.InitialiseSendsItsSequence : Prop :=
  ∃ head : List (Byte × Byte × Byte),
    (∀ e ∈ head, e.1 = 0xA1 ∨ e.1 = 0xB1 ∨ e.1 = 0xC0 ∨ e.1 = 0xC1) ∧ (∃ e ∈ head, e.1 = 0xC0) ∧
    (∃ e ∈ head, e.1 = 0xC1) ∧
    ∀ s : State, exec .initialise s = .next { s with
      tx := s.tx ++ (head ++ [(0xA1, 222, 0), (0xA1, 223, 0), (0xA1, 224, 0), (0xA1, 255, 0)]).map
        fun (e : Byte × Byte × Byte) =>
          [0xF1, e.1, e.2.1, 0x01, e.2.2, BitVec.ofNat 8 ((e.2.1.toNat + 1 + e.2.2.toNat) % 256)] }

/-- R115: the six bytes of `ENC 0xF1, cmd, fid, val` are a valid outgoing frame with the operands in their places. -/
def Obligations.EncodedFrameIsValid : Prop :=
  ∀ (cmd fid val : Byte) (s : State), ∃ (t : State) (frame : List Byte),
    exec (.enc 0xF1 cmd fid val) s = .next t ∧ t.tx = s.tx ++ [frame] ∧ frameValid 0xF1 frame = true ∧
    frame[3]? = some 1 ∧ frame[2]? = some fid ∧ frame[4]? = some val ∧
    frame[5]? = some (BitVec.ofNat 8 ((fid.toNat + 1 + val.toNat) % 256))

/-- R93 (derived by the spec from R80): `ENC` is injective, and its operands are read back from bytes 0, 1, 2 and 4 of
its frame. -/
def Obligations.EncIsInjective : Prop :=
  ∀ (dir cmd fid val dir' cmd' fid' val' : Byte) (s : State),
    (exec (.enc dir cmd fid val) s = exec (.enc dir' cmd' fid' val') s →
      dir = dir' ∧ cmd = cmd' ∧ fid = fid' ∧ val = val') ∧
    ∃ (t : State) (frame : List Byte), exec (.enc dir cmd fid val) s = .next t ∧ t.tx = s.tx ++ [frame] ∧
      frame[0]? = some dir ∧ frame[1]? = some cmd ∧ frame[2]? = some fid ∧ frame[4]? = some val

/-- R116 (the spec's decision D17), R24: the frames an outbound operation presents depend on the instruction alone,
never on the state; each has six bytes and is valid for the direction it names; a command presents one. Nothing but TX
changes. -/
def Obligations.TxDependsOnTheInstructionAlone : Prop :=
  ∀ i : Instr, i.isCommand = true ∨ i = .initialise →
    ∃ frames : List (List Byte),
      (∀ f ∈ frames, f.length = 6 ∧ ∃ dir, frameValid dir f = true) ∧ (i.isCommand = true → frames.length = 1) ∧
      ∀ s : State, exec i s = .next { s with tx := s.tx ++ frames }

/-- R15: a command and a feed may be applied in either order with the same result. -/
def Obligations.CommandsAndFeedsCommute : Prop :=
  ∀ (i : Instr) (bytes : List Byte) (s : State), i.isCommand = true ∨ i = .initialise →
    bytes.length ≤ Config.maxFeed →
    ∃ t u v : State, exec i s = .next t ∧ exec (.feed bytes) t = .next v ∧
      exec (.feed bytes) s = .next u ∧ exec i u = .next v

/-! ### Encodings and the checksum -/

/-- R81, R87: every well-formed inbound instruction is what its own frame decodes to, whatever follows the frame,
as soon as the six bytes of step 1 are there. The reply command code in the frame is the spec's decision D2 (log
10). -/
def Obligations.InboundFramesRoundTrip : Prop :=
  ∀ (i : Instr) (tail : List Byte), i.isReply = true → WellFormed i →
    ∃ bytes : List Byte, encode i = some bytes ∧
      (6 ≤ (bytes ++ tail).length → decodeFrame (bytes ++ tail) = .ok i)

/-- R80, R86, R92: every outbound instruction's frame decodes to that instruction, but for a spelling of a named form,
which decodes to the named form; what it decodes to has the same effect. The priority of the named forms is deduced
(log 9). -/
def Obligations.OutboundFramesRoundTrip : Prop :=
  ∀ i : Instr, i.isCommand = true →
    (∃ bytes : List Byte, encode i = some bytes ∧ decodeOut6 bytes = .ok i.canonical) ∧
    (∀ s : State, exec i.canonical s = exec i s) ∧ i.canonical.canonical = i.canonical ∧
    ((∀ dir cmd fid val, i = .enc dir cmd fid val →
        dir ≠ 0xF1 ∨ ¬ (cmd = 0xA1 ∧ val = 0 ∨ cmd = 0xB1 ∨ cmd = 0xC0 ∨ cmd = 0xC1)) →
      i ≠ .get 255 → i ≠ .set 219 1 → i ≠ .set 219 0 → i.canonical = i)

/-- R83, R132 and R135, taken together (the reply command code is the spec's decision D2, log 10): the scan finds a
frame at the head of some bytes exactly when six bytes are there and they begin with a valid incoming frame with the
reply command code; its identifier and payload are the frame's. -/
def Obligations.FrameFoundIffValid : Prop :=
  ∀ (b : List Byte) (fid : Byte) (payload : List Byte),
    examine b = .frame fid payload ↔
      6 ≤ b.length ∧ ∃ frame tail : List Byte, b = frame ++ tail ∧ frameValid 0xF0 frame = true ∧
        frame[1]? = some 0xA1 ∧ frame[2]? = some fid ∧ payload = frame.extract 4 (frame.length - 1)

/-- Words written out from R80, R81 and the spec's examples decode to the instructions they stand for. That the
first word reads as ENABLE and not as the SET 219, 1 of V-E11, the same six bytes, is the priority of the named
forms, which the model deduces (log 9); the reply command code of the incoming frames is the spec's decision D2
(log 10). -/
def Obligations.SpecWordsDecode : Prop :=
  decodeOut6 [0xF1, 0xB1, 0xDB, 0x01, 0x01, 0xDD] = .ok .enable ∧
  decodeOut6 [0xF1, 0xA1, 0xDE, 0x01, 0x00, 0xDF] = .ok (.get 222) ∧
  decodeOut6 [0xF1, 0xC0, 0x12, 0x01, 0x34, 0x47] = .ok (.initC0 0x12 0x34) ∧
  decodeFrame [0xF0, 0xA1, 0xC0, 0x04, 0x00, 0x00, 0x80, 0x3F, 0x83] = .ok (.rVin [0x00, 0x00, 0x80, 0x3F]) ∧
  decodeFrame [0xF0, 0xA1, 0xDB, 0x01, 0x01, 0xDD] = .ok (.rOutEn [0x01]) ∧
  decodeFrame [0xF0, 0xA1, 0xC8, 0x03, 0x01, 0x02, 0x03, 0xD1] = .ok (.rOther 200 [0x01, 0x02, 0x03])

/-- R82: an incoming frame's length is its length byte plus 5, from 5 to 260. -/
def Obligations.FrameLengthFromItsLengthByte : Prop :=
  ∀ (i : Instr) (bytes : List Byte), i.isReply = true → WellFormed i → encode i = some bytes →
    ∃ len : Byte, bytes[3]? = some len ∧ bytes.length = len.toNat + 5 ∧ 5 ≤ bytes.length ∧ bytes.length ≤ 260

/-- R174: the inbound opcode map, ten identifiers and one default. -/
def Obligations.ReplyMapIsClosed : Prop :=
  ∀ p : List Byte,
    decodeReply 192 p = .rVin p ∧ decodeReply 195 p = .rOut p ∧ decodeReply 196 p = .rTemp p ∧
    decodeReply 219 p = .rOutEn p ∧ decodeReply 222 p = .rModel p ∧ decodeReply 223 p = .rHwVer p ∧
    decodeReply 224 p = .rFwVer p ∧ decodeReply 226 p = .rVMax p ∧ decodeReply 227 p = .rIMax p ∧
    decodeReply 255 p = .rAll p ∧
    ∀ fid : Byte, fid ≠ 192 → fid ≠ 195 → fid ≠ 196 → fid ≠ 219 → fid ≠ 222 → fid ≠ 223 → fid ≠ 224 → fid ≠ 226 →
      fid ≠ 227 → fid ≠ 255 → decodeReply fid p = .rOther fid p

/-- R84, R12: the checksum is the sum of identifier, length and payload bytes modulo 256, in whatever order. -/
def Obligations.ChecksumIsTheSumModulo256 : Prop :=
  ∀ (fid len : Byte) (payload : List Byte),
    (cksum fid len payload).toNat = (fid.toNat + len.toNat + (payload.map BitVec.toNat).sum) % 256 ∧
    ∀ other : List Byte, other.Perm payload → cksum fid len other = cksum fid len payload

/-- R85 (derived by the spec from R84): direction header and command code are outside the checksum: frames that differ
only in them carry the same checksum byte, and a valid frame stays valid under any command code. -/
def Obligations.ChecksumIgnoresHeaderAndCommand : Prop :=
  (∀ dir cmd dir' cmd' fid val : Byte, (out6 dir cmd fid val)[5]? = (out6 dir' cmd' fid val)[5]?) ∧
  ∀ (dir cmd cmd' : Byte) (rest : List Byte), frameValid dir (dir :: cmd :: rest) = frameValid dir (dir :: cmd' :: rest)

/-- R52: `F32LE` is little-endian: the byte at the lowest offset is the least significant. -/
def Obligations.FloatIsLittleEndian : Prop :=
  ∀ b0 b1 b2 b3 : Byte,
    (f32LE b0 b1 b2 b3).toNat = b0.toNat + 256 * b1.toNat + 65536 * b2.toNat + 16777216 * b3.toNat ∧
    f32LE b0 b1 b2 b3 = b3 ++ b2 ++ b1 ++ b0

/-! ### The inbound instructions -/

/-- R162, R164, R169, R170; the short payload is R161's, the spec's decision D10 (log 12): the four single-float
fields. With four payload bytes or more the field takes their little-endian pattern; with fewer nothing is written
and EV_SHORT_PAYLOAD is raised. In both cases the frame is consumed and counted, and nothing else changes. What the
event carries is the spec's decision D8 (log 11). -/
def Obligations.SingleFloatReplies : Prop :=
  (∀ (b0 b1 b2 b3 : Byte) (more : List Byte) (s : State),
    let p := b0 :: b1 :: b2 :: b3 :: more
    exec (.rVin p) s = .next (s.afterFrame { s.ds with inputVoltage := b3 ++ b2 ++ b1 ++ b0 } p.length []) ∧
    exec (.rTemp p) s = .next (s.afterFrame { s.ds with temperature := b3 ++ b2 ++ b1 ++ b0 } p.length []) ∧
    exec (.rVMax p) s = .next (s.afterFrame { s.ds with upperlimitVoltage := b3 ++ b2 ++ b1 ++ b0 } p.length []) ∧
    exec (.rIMax p) s = .next (s.afterFrame { s.ds with upperlimitCurrent := b3 ++ b2 ++ b1 ++ b0 } p.length [])) ∧
  ∀ (p : List Byte) (s : State), p.length < 4 →
    exec (.rVin p) s = .next (s.afterFrame s.ds p.length [.shortPayload 192 p.length]) ∧
    exec (.rTemp p) s = .next (s.afterFrame s.ds p.length [.shortPayload 196 p.length]) ∧
    exec (.rVMax p) s = .next (s.afterFrame s.ds p.length [.shortPayload 226 p.length]) ∧
    exec (.rIMax p) s = .next (s.afterFrame s.ds p.length [.shortPayload 227 p.length])

/-- R163; the short payload is R161's, the spec's decision D10 (log 12): field 195 writes its three fields from
offsets 0, 4 and 8, or with fewer than twelve bytes none of them. What the event carries is the spec's decision D8
(log 11). -/
def Obligations.OutputReply : Prop :=
  (∀ (a0 a1 a2 a3 b0 b1 b2 b3 c0 c1 c2 c3 : Byte) (more : List Byte) (s : State),
    let p := a0 :: a1 :: a2 :: a3 :: b0 :: b1 :: b2 :: b3 :: c0 :: c1 :: c2 :: c3 :: more
    exec (.rOut p) s = .next (s.afterFrame { s.ds with
      outputVoltage := a3 ++ a2 ++ a1 ++ a0
      outputCurrent := b3 ++ b2 ++ b1 ++ b0
      outputPower := c3 ++ c2 ++ c1 ++ c0 } p.length [])) ∧
  ∀ (p : List Byte) (s : State), p.length < 12 →
    exec (.rOut p) s = .next (s.afterFrame s.ds p.length [.shortPayload 195 p.length])

/-- R165; the short payload is R161's, the spec's decision D10 (log 12): field 219 sets `output_closed` to whether
its first payload byte is exactly 1; an empty payload is short. What the event carries is the spec's decision D8
(log 11). -/
def Obligations.OutputEnableReply : Prop :=
  ∀ (b : Byte) (more : List Byte) (s : State),
    exec (.rOutEn (b :: more)) s =
      .next (s.afterFrame { s.ds with outputClosed := decide (b.toNat = 1) } (more.length + 1) []) ∧
    exec (.rOutEn []) s = .next (s.afterFrame s.ds 0 [.shortPayload 219 0])

/-- R166, R167, R168; which text is well formed is R173's, the spec's decision D13 (log 14): a text field reports
its bytes if every one is at most 0x7F, and raises EV_TEXT_ERROR if some byte is above; it writes no field. What
the event carries is the spec's decision D8 (log 11). -/
def Obligations.TextReplies : Prop :=
  ∀ (p : List Byte) (s : State),
    ((∀ b ∈ p, b.toNat ≤ 0x7F) →
      exec (.rModel p) s = .next (s.afterFrame s.ds p.length [.textReport 222 p]) ∧
      exec (.rHwVer p) s = .next (s.afterFrame s.ds p.length [.textReport 223 p]) ∧
      exec (.rFwVer p) s = .next (s.afterFrame s.ds p.length [.textReport 224 p])) ∧
    ((∃ b ∈ p, 0x7F < b.toNat) →
      exec (.rModel p) s = .next (s.afterFrame s.ds p.length [.textError 222]) ∧
      exec (.rHwVer p) s = .next (s.afterFrame s.ds p.length [.textError 223]) ∧
      exec (.rFwVer p) s = .next (s.afterFrame s.ds p.length [.textError 224]))

/-- R171, R176; the least length 119 is the spec's derivation and the short payload its decision D10 (logs 12, 20):
the composite snapshot writes nine fields from their offsets; `upperlimit_voltage` is the pattern at offset 115,
whatever stands at 111, and `upperlimit_current` is not written. With fewer than 119 bytes nothing is. What the
event carries is the spec's decision D8 (log 11). -/
def Obligations.CompositeReply : Prop :=
  ∀ (p : List Byte) (s : State),
    (∀ _ : 119 ≤ p.length, exec (.rAll p) s = .next (s.afterFrame { s.ds with
      inputVoltage := p[3] ++ p[2] ++ p[1] ++ p[0]
      setVoltage := p[7] ++ p[6] ++ p[5] ++ p[4]
      setCurrent := p[11] ++ p[10] ++ p[9] ++ p[8]
      outputVoltage := p[15] ++ p[14] ++ p[13] ++ p[12]
      outputCurrent := p[19] ++ p[18] ++ p[17] ++ p[16]
      outputPower := p[23] ++ p[22] ++ p[21] ++ p[20]
      temperature := p[27] ++ p[26] ++ p[25] ++ p[24]
      outputClosed := decide (p[107].toNat = 1)
      upperlimitVoltage := p[118] ++ p[117] ++ p[116] ++ p[115] } p.length [])) ∧
    (p.length < 119 → exec (.rAll p) s = .next (s.afterFrame s.ds p.length [.shortPayload 255 p.length]))

/-- R172: any other identifier is consumed whole, with EV_UNRECOGNIZED_FIELD, and writes nothing. What the event
carries is the spec's decision D8 (log 11). -/
def Obligations.OtherReply : Prop :=
  ∀ (fid : Byte) (p : List Byte) (s : State), WellFormed (.rOther fid p) →
    exec (.rOther fid p) s = .next (s.afterFrame s.ds p.length [.unrecognizedField fid p.length])

/-- R161, the spec's decisions D10 and D12 (logs 12, 13): for every numeric or boolean field, a payload shorter
than `need` writes nothing and raises EV_SHORT_PAYLOAD; one of `need` bytes or more raises no event, and what it
writes depends on its first `need` bytes only. What the event carries is the spec's decision D8 (log 11). -/
def Obligations.ShortPayloadWritesNothing : Prop :=
  ∀ (i : Instr) (fid : Byte) (p : List Byte), 0 < i.need → i.reply = some (fid, p) →
    (p.length < i.need → ∀ s : State, exec i s = .next (s.afterFrame s.ds p.length [.shortPayload fid p.length])) ∧
    (i.need ≤ p.length → ∀ s : State, ∃ d : DeviceState, exec i s = .next (s.afterFrame d p.length []) ∧
      ∀ more : List Byte,
        exec (decodeReply fid (p.take i.need ++ more)) s = .next (s.afterFrame d (i.need + more.length) []))

/-- R135, R207, R209 (what raises an event is the spec's decision D8, log 11): an inbound instruction always
completes; it consumes and counts its frame and changes at most DS and the event list; it raises at most one event,
and one that raises an event writes nothing. -/
def Obligations.RepliesChangeOnlyDsAndThePass : Prop :=
  ∀ (i : Instr) (fid : Byte) (p : List Byte) (s : State), i.reply = some (fid, p) →
    ∃ (d : DeviceState) (events : List Event), exec i s = .next (s.afterFrame d p.length events) ∧
      events.length ≤ 1 ∧ (events ≠ [] → d = s.ds)

/-- R21's table and R175 (derived by the spec): which inbound instruction writes which field. -/
def Obligations.FieldsAreWrittenByTheirReplies : Prop :=
  ∀ (i : Instr) (s t : State), i.isReply = true → exec i s = .next t →
    (t.ds.setVoltage ≠ s.ds.setVoltage → ∃ p, i = .rAll p) ∧
    (t.ds.setCurrent ≠ s.ds.setCurrent → ∃ p, i = .rAll p) ∧
    (t.ds.inputVoltage ≠ s.ds.inputVoltage → ∃ p, i = .rVin p ∨ i = .rAll p) ∧
    (t.ds.outputVoltage ≠ s.ds.outputVoltage → ∃ p, i = .rOut p ∨ i = .rAll p) ∧
    (t.ds.outputCurrent ≠ s.ds.outputCurrent → ∃ p, i = .rOut p ∨ i = .rAll p) ∧
    (t.ds.outputPower ≠ s.ds.outputPower → ∃ p, i = .rOut p ∨ i = .rAll p) ∧
    (t.ds.outputClosed ≠ s.ds.outputClosed → ∃ p, i = .rOutEn p ∨ i = .rAll p) ∧
    (t.ds.upperlimitVoltage ≠ s.ds.upperlimitVoltage → ∃ p, i = .rVMax p ∨ i = .rAll p) ∧
    (t.ds.upperlimitCurrent ≠ s.ds.upperlimitCurrent → ∃ p, i = .rIMax p) ∧
    (t.ds.temperature ≠ s.ds.temperature → ∃ p, i = .rTemp p ∨ i = .rAll p)

/-- R22, the spec's decision D9 (log 16): every 32-bit pattern can be delivered and is stored bit for bit, least
significant byte first on the wire. -/
def Obligations.EveryPatternIsStoredBitForBit : Prop :=
  ∀ (w : Pattern) (s : State),
    exec (.rVin [w.extractLsb' 0 8, w.extractLsb' 8 8, w.extractLsb' 16 8, w.extractLsb' 24 8]) s =
      .next (s.afterFrame { s.ds with inputVoltage := w } 4 [])

/-- R24, R59: no instruction but FEED, POLL, RESET and, for DS, the inbound ones, changes DS or BUF. -/
def Obligations.OnlyTheDecoderAndResetWriteDsAndBuf : Prop :=
  ∀ (i : Instr) (s t : State), exec i s = .next t →
    (t.ds ≠ s.ds → i.isReply = true ∨ (∃ bytes, i = .feed bytes) ∨ i = .poll ∨ i = .reset) ∧
    (t.buf ≠ s.buf → (∃ bytes, i = .feed bytes) ∨ i = .poll ∨ i = .reset)

/-! ### The scan and FEED -/

/-- R131, R132, R133 (the reply command code in the clause of R132 is decision D2, log 10): with fewer than six bytes
from `pos` on the scan stops; where header and command code do not match it moves on by one byte, without an event; a
candidate whose bytes are not all there stops it. Told by the bytes of BUF. -/
def Obligations.ScanStopsAndSkips : Prop :=
  ∀ s : State,
    (s.buf.length - s.pass.pos < 6 → scanStep s = none) ∧
    (¬ s.buf.length - s.pass.pos < 6 →
      ((s.buf[s.pass.pos]? ≠ some 0xF0 ∨ s.buf[s.pass.pos + 1]? ≠ some 0xA1) →
        scanStep s = some { s with pass := { s.pass with pos := s.pass.pos + 1 } }) ∧
      ∀ len : Byte, s.buf[s.pass.pos]? = some 0xF0 → s.buf[s.pass.pos + 1]? = some 0xA1 →
        s.buf[s.pass.pos + 3]? = some len → s.buf.length - s.pass.pos < len.toNat + 5 → scanStep s = none)

/-- R134 (its event's fields are the spec's decision D8, log 11) and R135: a candidate whose bytes are all there. On a
checksum mismatch the event is raised and the scan moves on by one byte; on a match it runs the instruction of the
frame, moves past it and counts it. -/
def Obligations.ScanValidatesTheChecksum : Prop :=
  ∀ (s : State) (fid len : Byte), ¬ s.buf.length - s.pass.pos < 6 → s.buf[s.pass.pos]? = some 0xF0 →
    s.buf[s.pass.pos + 1]? = some 0xA1 → s.buf[s.pass.pos + 2]? = some fid → s.buf[s.pass.pos + 3]? = some len →
    ¬ s.buf.length - s.pass.pos < len.toNat + 5 →
    ∃ c r : Byte, c = sum8 (s.buf.extract (s.pass.pos + 2) (s.pass.pos + 4 + len.toNat)) ∧
      s.buf[s.pass.pos + 4 + len.toNat]? = some r ∧
      (c ≠ r → scanStep s = some { s with pass := { s.pass with
        pos := s.pass.pos + 1
        evt := s.pass.evt ++ [.checksumError fid len.toNat c r] } }) ∧
      (c = r → ∃ t : State,
        exec (decodeReply fid (s.buf.extract (s.pass.pos + 4) (s.pass.pos + 4 + len.toNat))) s = .next t ∧
        scanStep s = some t ∧ t.pass.pos = s.pass.pos + len.toNat + 5 ∧ t.pass.nframes = s.pass.nframes + 1)

/-- R160 and R135: when the bytes at `pos` decode to an inbound instruction, it is well formed and the scan's next
move is that instruction's execution, whose effect on DS and the events is `Dispatch`. -/
def Obligations.PassRunsTheInstructionAtPos : Prop :=
  ∀ (s : State) (i : Instr), decodeFrame (rest s) = .ok i →
    WellFormed i ∧ i.isReply = true ∧ ∃ t : State, exec i s = .next t ∧ scanStep s = some t ∧
      ∀ (fid : Byte) (p : List Byte), i.reply = some (fid, p) →
        t = s.afterFrame (dispatchEffect s.ds fid p).1 p.length (dispatchEffect s.ds fid p).2

/-- R130, R136, R139 (which the spec derives): `FEED` completes, and its result is that of the reference function
`Scan` on the residual and the fed bytes; `updated` is whether a frame was counted (the spec's decision D6, log
15); nothing but BUF, DS and RES changes, and no pass is left in progress (log 1). What the event carries is the
spec's decision D8 (log 11). -/
def Obligations.FeedIsTheReferenceScan : Prop :=
  ∀ (bytes : List Byte) (s : State), bytes.length ≤ Config.maxFeed →
    ∃ (B' : List Byte) (D' : DeviceState) (n : Nat) (E : List Event),
      Scans (s.buf ++ bytes) 0 s.ds 0 [] B' D' n E ∧
      exec (.feed bytes) s = .next { s with
        buf := B', ds := D', pass := Pass.start, res := s.res ++ [⟨decide (0 < n), n, E⟩] }

/-- R139, R142 (derived by the spec): the reference function is a function: it gives one result, and it always gives
one. -/
def Obligations.ReferenceScanIsAFunction : Prop :=
  ∀ (B : List Byte) (p : Nat) (D : DeviceState) (n : Nat) (E : List Event),
    (∃ B' D' n' E', Scans B p D n E B' D' n' E') ∧
    ∀ B₁ D₁ n₁ E₁ B₂ D₂ n₂ E₂, Scans B p D n E B₁ D₁ n₁ E₁ → Scans B p D n E B₂ D₂ n₂ E₂ →
      B₁ = B₂ ∧ D₁ = D₂ ∧ n₁ = n₂ ∧ E₁ = E₂

/-- R14, U5, the spec's decision D4 (log 3): a feed longer than MAX_FEED is refused by name; that a POLL whose read is
longer is refused too is the model's choice (log 3). -/
def Obligations.OverlongFeedIsRefused : Prop :=
  ∀ (bytes : List Byte) (s : State), Config.maxFeed < bytes.length →
    exec (.feed bytes) s = .refused (.feedTooLong bytes.length) ∧
    ∀ reads : List Read, s.transport = .bytes bytes :: reads → exec .poll s = .refused (.feedTooLong bytes.length)

/-- R142 (derived by the spec): a pass over `N` bytes stops by itself within `N - 4` visits to step 1 (one visit when
there are fewer than five bytes): after at most `N - 5` moves a step says stop, and that is where the pass ends. -/
def Obligations.PassEndsWithinItsBytes : Prop :=
  ∀ (bytes : List Byte) (s : State),
    scanStep (scan ((s.buf ++ bytes).length - 5) (startPass bytes s)) = none ∧
    runPass bytes s = scan ((s.buf ++ bytes).length - 5) (startPass bytes s)

/-- R143 (derived by the spec): after every pass the buffer holds at most 259 bytes, whatever it held before and
whatever is fed. -/
def Obligations.ResidualIsBounded : Prop :=
  ∀ (bytes : List Byte) (s t : State), exec (.feed bytes) s = .next t → t.buf.length ≤ 259

/-- R27, R28, with the spec's decisions D4 and D5 (logs 2, 3, 18): from between operations, at every point of every
pass the buffer is within BUF_CAP and `pos` within the buffer; BUF_CAP fits POS_BITS, which are at least 9. That no
pass is in progress, a clause of State.Inv, is the model's choice (log 1). -/
def Obligations.BufferNeverOverflows : Prop :=
  ∀ (bytes : List Byte) (s : State), s.Inv → bytes.length ≤ Config.maxFeed →
    (∀ k : Nat, (scan k (startPass bytes s)).buf.length ≤ Config.bufCap ∧
      (scan k (startPass bytes s)).pass.pos ≤ (scan k (startPass bytes s)).buf.length) ∧
    Config.bufCap < 2 ^ Config.posBits ∧ 9 ≤ Config.posBits

/-- R141 (derived by the spec): between operations the empty feed changes nothing, and reports no frame and no
event. That no pass is in progress, a clause of State.Inv, is the model's choice (log 1). -/
def Obligations.EmptyFeedChangesNothing : Prop :=
  ∀ s : State, s.Inv → exec (.feed []) s = .next { s with res := s.res ++ [⟨false, 0, []⟩] }

/-- R144 (derived by the spec): feeding `a` and then `b` leaves the BUF and DS that feeding `a ++ b` leaves, raises the
same events in the same order, and counts the same frames. -/
def Obligations.FragmentationDoesNotMatter : Prop :=
  ∀ (a b : List Byte) (s : State), (a ++ b).length ≤ Config.maxFeed →
    ∃ (t u v : State) (ra rb r : PassResult),
      exec (.feed a) s = .next t ∧ exec (.feed b) t = .next u ∧ exec (.feed (a ++ b)) s = .next v ∧
      u.buf = v.buf ∧ u.ds = v.ds ∧ u.res = s.res ++ [ra, rb] ∧ v.res = s.res ++ [r] ∧
      r.evt = ra.evt ++ rb.evt ∧ r.nframes = ra.nframes + rb.nframes

/-- R144 (derived by the spec), said of whole streams: however the bytes of a stream are split into feeds, running the
feeds completes, leaves the same BUF and DS, raises the same events in the same order and counts the same frames. -/
def Obligations.AnySplitOfAStreamIsTheSame : Prop :=
  ∀ (feeds feeds' : List (List Byte)) (s : State), feeds.flatten = feeds'.flatten → feeds ≠ [] → feeds' ≠ [] →
    (∀ b ∈ feeds ++ feeds', b.length ≤ Config.maxFeed) →
    ∃ (t t' : State) (r r' : List PassResult),
      core.run feeds.length { s with host := feeds.map .feed } = .next t ∧
      core.run feeds'.length { s with host := feeds'.map .feed } = .next t' ∧
      t.buf = t'.buf ∧ t.ds = t'.ds ∧ t.res = s.res ++ r ∧ t'.res = s.res ++ r' ∧
      r.flatMap PassResult.evt = r'.flatMap PassResult.evt ∧
      (r.map PassResult.nframes).sum = (r'.map PassResult.nframes).sum

/-- R145 (derived by the spec), for any split of the bytes between what the buffer holds and what is fed: garbage
without a candidate, then one frame of six bytes or more: the frame is applied, exactly one update is counted, and
the buffer is left empty. That a frame counts as an update is the spec's decision D6 (log 15), and the pass
registers after the pass are the model's choice (log 1). -/
def Obligations.GarbageThenOneFrame : Prop :=
  ∀ (g : List Byte) (fid : Byte) (p bytes : List Byte) (s : State), s.buf ++ bytes = g ++ invar fid p →
    1 ≤ p.length → p.length ≤ 255 → noCandidate g.length (g ++ invar fid p) → bytes.length ≤ Config.maxFeed →
    exec (.feed bytes) s = .next { s with
      ds := (dispatchEffect s.ds fid p).1
      buf := []
      pass := Pass.start
      res := s.res ++ [⟨true, 1, (dispatchEffect s.ds fid p).2⟩] }

/-- R146 (derived by the spec), for any split of the bytes between what the buffer holds and what is fed: a frame
with its checksum byte altered and no candidate inside it writes nothing, raises one checksum error, and the valid
frame after it is applied. That a frame counts as an update is the spec's decision D6 (log 15), and the pass
registers after the pass are the model's choice (log 1). What the event carries is the spec's decision D8 (log 11). -/
def Obligations.CorruptedFrameWritesNothing : Prop :=
  ∀ (fid c : Byte) (p : List Byte) (fid' : Byte) (p' bytes : List Byte) (s : State),
    let len := BitVec.ofNat 8 p.length
    let bad := 0xF0 :: 0xA1 :: fid :: len :: (p ++ [c])
    s.buf ++ bytes = bad ++ invar fid' p' → p.length ≤ 255 → c ≠ cksum fid len p → 1 ≤ p'.length → p'.length ≤ 255 →
    noCandidate (p.length + 4) ((bad ++ invar fid' p').drop 1) →
    bytes.length ≤ Config.maxFeed →
    exec (.feed bytes) s = .next { s with
      ds := (dispatchEffect s.ds fid' p').1
      buf := []
      pass := Pass.start
      res := s.res ++ [⟨true, 1,
        .checksumError fid p.length (cksum fid len p) c :: (dispatchEffect s.ds fid' p').2⟩] }

/-- R206, R132, R131, taken together: bytes with no candidate are skipped without an event; the last five at most
stay. That a frame counts as an update is the spec's decision D6 (log 15), and the pass registers after the pass
are the model's choice (log 1). -/
def Obligations.GarbageRaisesNoEvent : Prop :=
  ∀ (g bytes : List Byte) (s : State), s.buf ++ bytes = g → noCandidate g.length g → bytes.length ≤ Config.maxFeed →
    exec (.feed bytes) s = .next { s with
      buf := g.drop (g.length - 5), pass := Pass.start, res := s.res ++ [⟨false, 0, []⟩] }

/-- R133, R148 (derived by the spec): a candidate at the front of the buffer whose bytes have not all arrived holds
everything behind it. That a frame counts as an update is the spec's decision D6 (log 15), and the pass registers
after the pass are the model's choice (log 1). -/
def Obligations.FalseCandidateHoldsTheScan : Prop :=
  ∀ (bytes : List Byte) (fid len : Byte) (more : List Byte) (s : State),
    s.buf ++ bytes = 0xF0 :: 0xA1 :: fid :: len :: more → 2 ≤ more.length → more.length < len.toNat + 1 →
    bytes.length ≤ Config.maxFeed →
    exec (.feed bytes) s = .next { s with
      buf := s.buf ++ bytes, pass := Pass.start, res := s.res ++ [⟨false, 0, []⟩] }

/-- R147 (derived by the spec): the five bytes of a frame without payload wait for one more byte, and are then
decoded. That a frame counts as an update is the spec's decision D6 (log 15). -/
def Obligations.ZeroLengthFrameWaitsForAByte : Prop :=
  ∀ (fid x : Byte) (bytes : List Byte) (s : State), s.buf ++ bytes = [0xF0, 0xA1, fid, 0x00, fid] →
    bytes.length ≤ Config.maxFeed →
    ∃ t u : State, exec (.feed bytes) s = .next t ∧
      t.buf = [0xF0, 0xA1, fid, 0x00, fid] ∧ t.ds = s.ds ∧ exec (.feed [x]) t = .next u ∧ u.buf = [x] ∧
      u.ds = (dispatchEffect s.ds fid []).1 ∧
      u.res = s.res ++ [⟨false, 0, []⟩, ⟨true, 1, (dispatchEffect s.ds fid []).2⟩]

/-- R210 (derived by the spec) and R29 (decision D6, log 15): DS after a pass is the dispatch rules applied, in order,
to exactly the checksum-valid frames found, and these are what `nframes` counts and `updated` tells of. -/
def Obligations.PassAppliesExactlyTheValidFrames : Prop :=
  ∀ (bytes : List Byte) (s : State), bytes.length ≤ Config.maxFeed →
    let frames := framesIn (s.buf ++ bytes).length (s.buf ++ bytes)
    ∃ (t : State) (E : List Event), exec (.feed bytes) s = .next t ∧
      t.ds = frames.foldl (fun d f => (dispatchEffect d f.1 f.2).1) s.ds ∧
      t.res = s.res ++ [⟨decide (0 < frames.length), frames.length, E⟩]

/-- R132 and the spec's conflict C7, for any split of the frame between what the buffer holds and what is fed: an
outgoing frame fed back is no incoming frame: one byte is skipped and five stay. That a frame counts as an update
is the spec's decision D6 (log 15), and the pass registers after the pass are the model's choice (log 1). -/
def Obligations.OutgoingFrameIsNotDecoded : Prop :=
  ∀ (cmd fid val : Byte) (bytes : List Byte) (s : State), s.buf ++ bytes = out6 0xF1 cmd fid val →
    bytes.length ≤ Config.maxFeed →
    exec (.feed bytes) s = .next { s with
      buf := (out6 0xF1 cmd fid val).drop 1, pass := Pass.start, res := s.res ++ [⟨false, 0, []⟩] }

/-! ### The other ports and the controller -/

/-- R35: `SNAP` presents the ten fields as they stand and changes nothing else, so it may be repeated; after reset and
before any feed it presents the reset values. -/
def Obligations.SnapPresentsTheFields : Prop :=
  (∀ s : State, exec .snap s = .next { s with snap := s.snap ++ [s.ds] }) ∧
  exec .snap State.reset = .next { State.reset with
    snap := [⟨0x00000000, 0x00000000, 0x00000000, 0x00000000, 0x00000000, 0x00000000, false, 0x00000000, 0x00000000,
      0x00000000⟩] }

/-- R230, the spec's decision D20 (log 19): `RESET` zeroes the nine float fields, clears `output_closed`, empties BUF,
and presents nothing. -/
def Obligations.ResetClearsDsAndBuf : Prop :=
  ∀ s : State, exec .reset s = .next { s with
    ds := ⟨0x00000000, 0x00000000, 0x00000000, 0x00000000, 0x00000000, 0x00000000, false, 0x00000000, 0x00000000,
      0x00000000⟩
    buf := [] }

/-- R194 (that a transport with nothing waiting reads as no bytes is the model's choice, log 8): `POLL` makes one
read. A failed or empty read, or none to be had, returns false and changes nothing else; a read of bytes is fed,
and `updated` of that feed is returned. What updated means is the spec's decision D6 (log 15). -/
def Obligations.PollReadsOnceAndFeeds : Prop :=
  ∀ (s : State) (reads : List Read),
    (s.transport = [] → exec .poll s = .next { s with polled := s.polled ++ [false] }) ∧
    (s.transport = .failed :: reads →
      exec .poll s = .next { s with transport := reads, polled := s.polled ++ [false] }) ∧
    (s.transport = .bytes [] :: reads →
      exec .poll s = .next { s with transport := reads, polled := s.polled ++ [false] }) ∧
    ∀ bytes : List Byte, s.transport = .bytes bytes :: reads → bytes ≠ [] → bytes.length ≤ Config.maxFeed →
      ∃ (t : State) (r : PassResult), exec (.feed bytes) { s with transport := reads } = .next t ∧
        t.res = s.res ++ [r] ∧ exec .poll s = .next { t with polled := s.polled ++ [r.updated] }

/-! ### The machine -/

/-- R34 (the empty buffer is the spec's decision D7): the block's two pieces of state after reset. -/
def Obligations.ResetStateIsZeroed : Prop :=
  State.reset.ds = ⟨0x00000000, 0x00000000, 0x00000000, 0x00000000, 0x00000000, 0x00000000, false, 0x00000000,
    0x00000000, 0x00000000⟩ ∧ State.reset.buf = []

/-- Derived from R34, R131 and R29: the reset machine, before any host and any transport, meets the invariant. That
no pass is in progress, a clause of State.Inv, is the model's choice (log 1). The empty buffer is the spec's
decision D7, what updated means its decision D6 (log 15). -/
def Obligations.ResetMeetsTheInvariant : Prop :=
  ∀ (ops : List HostOp) (reads : List Read), (State.powerUp ops reads).Inv

/-- Derived from R56, R131, R133, R29 and R80; that no pass is in progress is kept as log 1 says: every step keeps
the invariant. What updated means is the spec's decision D6 (log 15). -/
def Obligations.EveryStepKeepsTheInvariant : Prop :=
  ∀ s t : State, s.Inv → step s = .next t → t.Inv

/-- Derived from R143 and R56: in every run from reset, under any host and any transport, between operations the
buffer holds a residual of at most 259 bytes and no pass is in progress. That no pass is in progress, a clause of
State.Inv, is the model's choice (log 1). What updated means is the spec's decision D6 (log 15). -/
def Obligations.EveryRunKeepsTheInvariant : Prop :=
  ∀ (ops : List HostOp) (reads : List Read) (k : Nat) (t : State),
    core.run k (State.powerUp ops reads) = .next t → t.Inv ∧ t.buf.length ≤ 259

/-- Derived from R6, R16, R56, R213 and R243 (logs 5, 17): a step performs the host's next operation, whole, and takes
it off the list: it is `exec` of the instruction the operation decodes to. A command decodes to an instruction with the
operands on the port; every other operation to the instruction of its own name, a feed with its bytes. With no operation
waiting a step changes nothing. -/
def Obligations.StepRunsTheNextOperation : Prop :=
  (∀ (op : HostOp) (ops : List HostOp) (s : State), s.host = op :: ops →
    step s = exec (decodeOp op) { s with host := ops }) ∧
  (∀ dir cmd fid val : Byte, WellFormed (decodeOp (.cmd dir cmd fid val)) ∧
    (decodeOp (.cmd dir cmd fid val)).isCommand = true ∧
    (decodeOp (.cmd dir cmd fid val)).operands = some (dir, cmd, fid, val)) ∧
  (∀ bytes : List Byte, decodeOp (.feed bytes) = .feed bytes) ∧
  decodeOp .snap = .snap ∧ decodeOp .reset = .reset ∧ decodeOp .initialise = .initialise ∧ decodeOp .poll = .poll ∧
  ∀ s : State, s.host = [] → step s = .next s

/-- Derived from R33 and R116 (log 6): nothing reads what has crossed the output ports. Without it an instruction
completes or is refused just as with it, leaves the rest of the state the same, and presents the same on every port:
what it adds to each list is the same. -/
def Obligations.OutputsAreNotRead : Prop :=
  ∀ (i : Instr) (s : State),
    (∀ t, exec i s = .next t → ∃ u, exec i s.withoutOutputs = .next u ∧ u.withoutOutputs = t.withoutOutputs ∧
      t.tx = s.tx ++ u.tx ∧ t.res = s.res ++ u.res ∧ t.snap = s.snap ++ u.snap ∧ t.polled = s.polled ++ u.polled) ∧
    ∀ r, exec i s = .refused r → exec i s.withoutOutputs = .refused r

/-- Derived from R116, R136 and R35 (log 6): what has been presented on a port stays presented: every operation only
adds at the end. -/
def Obligations.OutputsOnlyGrow : Prop :=
  ∀ (i : Instr) (s t : State), exec i s = .next t →
    s.tx <+: t.tx ∧ s.res <+: t.res ∧ s.snap <+: t.snap ∧ s.polled <+: t.polled
end

