-- ==== Sys2Proof/Laws/Decode.lean ====
section
/-! SUPPORT. What the decoder and the encoder can do: one lemma per function, and the small lemmas of the checksum. -/

namespace Sys2Proof

@[simp] theorem sum8_nil : sum8 [] = 0 := rfl

@[simp] theorem sum8_cons (b : Byte) (bs : List Byte) : sum8 (b :: bs) = b + sum8 bs := rfl

theorem sum8_append (a b : List Byte) : sum8 (a ++ b) = sum8 a + sum8 b := by
  induction a with
  | nil => simp
  | cons x xs ih => simp [ih, add_assoc]

/-- A checksum is the sum of the field identifier, the length and the payload, modulo 256 (R84). -/
theorem cksum_eq (fid len : Byte) (payload : List Byte) : cksum fid len payload = fid + (len + sum8 payload) := rfl

/-- Fewer than six bytes are not looked at (R131). -/
theorem examine_of_short {r : List Byte} (h : r.length < 6) : examine r = .tooFew := by
  unfold examine
  split
  · rw [if_pos (by simpa [Config.minScan] using h)]
  · rfl

/-- Where no step 1 to 4 decides earlier, the tests of `examine` are those of the steps (R132 to R135). -/
theorem examine_of_long {b0 b1 fid len : Byte} {rest : List Byte} (h : 2 ≤ rest.length) :
    examine (b0 :: b1 :: fid :: len :: rest) =
      if b0 ≠ 0xF0 ∨ b1 ≠ 0xA1 then .notStart
      else if h : rest.length < len.toNat + 1 then .incomplete
      else if cksum fid len (rest.take len.toNat) ≠ rest[len.toNat]'(by omega) then
        .badChecksum fid len.toNat (cksum fid len (rest.take len.toNat)) (rest[len.toNat]'(by omega))
      else .frame fid (rest.take len.toNat) := by
  have h1 : ¬ (b0 :: b1 :: fid :: len :: rest).length < Config.minScan := by simp [Config.minScan]; omega
  simp only [examine, if_neg h1, Config.hdrIn, Config.replyCmd]
  split
  · rfl
  · have h2 : ((b0 :: b1 :: fid :: len :: rest).length < len.toNat + Config.inOverhead) ↔
        rest.length < len.toNat + 1 := by simp [Config.inOverhead]
    by_cases h3 : rest.length < len.toNat + 1
    · rw [if_pos (h2.mpr h3), dif_pos h3]
    · have h4 : rest.drop len.toNat = rest[len.toNat] :: rest.drop (len.toNat + 1) := List.drop_eq_getElem_cons (by omega)
      simp only [if_neg (h2.not.mpr h3), dif_neg h3, h4]

/-- Six bytes or more have a head of four and a rest of two or more. -/
theorem exists_head {r : List Byte} (h : 6 ≤ r.length) :
    ∃ b0 b1 fid len rest, r = b0 :: b1 :: fid :: len :: rest ∧ 2 ≤ rest.length := by
  match r, h with
  | b0 :: b1 :: fid :: len :: rest, h => exact ⟨b0, b1, fid, len, rest, rfl, by simp at h; omega⟩

/-- Everything `examine` can answer, and on which bytes (R131 to R135). -/
theorem examine_cases (r : List Byte) :
    (examine r = .tooFew ∧ r.length < 6) ∨
    (∃ b0 b1 fid len rest, r = b0 :: b1 :: fid :: len :: rest ∧ 2 ≤ rest.length ∧
      ((examine r = .notStart ∧ (b0 ≠ 0xF0 ∨ b1 ≠ 0xA1)) ∨
       (b0 = 0xF0 ∧ b1 = 0xA1 ∧ examine r = .incomplete ∧ rest.length < len.toNat + 1) ∨
       (∃ payload c tail, b0 = 0xF0 ∧ b1 = 0xA1 ∧ rest = payload ++ c :: tail ∧ payload.length = len.toNat ∧
         cksum fid len payload ≠ c ∧
         examine r = .badChecksum fid len.toNat (cksum fid len payload) c) ∨
       (∃ payload tail, b0 = 0xF0 ∧ b1 = 0xA1 ∧ rest = payload ++ cksum fid len payload :: tail ∧
         payload.length = len.toNat ∧ examine r = .frame fid payload))) := by
  by_cases h : r.length < 6
  · exact .inl ⟨examine_of_short h, h⟩
  · obtain ⟨b0, b1, fid, len, rest, rfl, h2⟩ := exists_head (Nat.le_of_not_lt h)
    refine .inr ⟨b0, b1, fid, len, rest, rfl, h2, ?_⟩
    rw [examine_of_long h2]
    by_cases h3 : b0 ≠ 0xF0 ∨ b1 ≠ 0xA1
    · exact .inl ⟨if_pos h3, h3⟩
    · rw [if_neg h3]
      simp only [not_or, not_not] at h3
      by_cases h4 : rest.length < len.toNat + 1
      · exact .inr (.inl ⟨h3.1, h3.2, dif_pos h4, h4⟩)
      · rw [dif_neg h4]
        have h5 : rest = rest.take len.toNat ++ rest[len.toNat] :: rest.drop (len.toNat + 1) := by
          rw [← List.drop_eq_getElem_cons, List.take_append_drop]
        have h6 : (rest.take len.toNat).length = len.toNat := by simp; omega
        by_cases h7 : cksum fid len (rest.take len.toNat) = rest[len.toNat]
        · refine .inr (.inr (.inr ⟨rest.take len.toNat, rest.drop (len.toNat + 1), h3.1, h3.2, ?_, h6, ?_⟩))
          · rw [h7]; exact h5
          · simp [h7]
        · exact .inr (.inr (.inl ⟨_, _, _, h3.1, h3.2, h5, h6, h7, if_pos h7⟩))

/-- A candidate whose bytes are all there and whose checksum matches is a frame (R135). -/
theorem examine_frame {fid len : Byte} {payload tail : List Byte} (h : payload.length = len.toNat)
    (h6 : 6 ≤ payload.length + tail.length + 5) :
    examine (0xF0 :: 0xA1 :: fid :: len :: (payload ++ cksum fid len payload :: tail)) = .frame fid payload := by
  rw [examine_of_long (by simp; omega)]
  simp [← h]

/-- A candidate whose bytes are all there and whose checksum does not match (R134). -/
theorem examine_badChecksum {fid len c : Byte} {payload tail : List Byte} (h : payload.length = len.toNat)
    (h6 : 6 ≤ payload.length + tail.length + 5) (hc : cksum fid len payload ≠ c) :
    examine (0xF0 :: 0xA1 :: fid :: len :: (payload ++ c :: tail)) =
      .badChecksum fid payload.length (cksum fid len payload) c := by
  rw [examine_of_long (by simp; omega)]
  simp [← h, hc]

/-- What has been decided at a position stays decided when more bytes arrive (R144). -/
theorem examine_append {r : List Byte} (h : ¬ (examine r = .tooFew ∨ examine r = .incomplete)) (more : List Byte) :
    examine (r ++ more) = examine r := by
  rcases examine_cases r with ⟨h1, -⟩ | ⟨b0, b1, fid, len, rest, rfl, h2, ⟨h3, h4⟩ | ⟨-, -, h3, -⟩ |
      ⟨payload, c, tail, rfl, rfl, rfl, h3, h4, h5⟩ | ⟨payload, tail, rfl, rfl, rfl, h3, h5⟩⟩
  · exact absurd (.inl h1) h
  · rw [h3]
    simp only [List.cons_append]
    rw [examine_of_long (by simp; omega), if_pos h4]
  · exact absurd (.inr h3) h
  · rw [h5]
    simp only [List.cons_append, List.append_assoc]
    rw [examine_badChecksum h3 (by simp at h2 ⊢; omega) h4, h3]
  · rw [h5]
    simp only [List.cons_append, List.append_assoc]
    rw [examine_frame h3 (by simp at h2 ⊢; omega)]

/-- The frame of a payload that fits decodes to its identifier and payload, where the scan looks at it (R81, R147). -/
theorem examine_invar {fid : Byte} {payload tail : List Byte} (h : payload.length ≤ 255)
    (h6 : 6 ≤ payload.length + tail.length + 5) : examine (invar fid payload ++ tail) = .frame fid payload := by
  simp only [invar, Config.hdrIn, Config.replyCmd, List.cons_append, List.append_assoc, List.nil_append]
  exact examine_frame (by simp; omega) h6

@[simp] theorem invar_length (fid : Byte) (payload : List Byte) : (invar fid payload).length = payload.length + 5 := by
  simp [invar]

@[simp] theorem out6_length (dir cmd fid val : Byte) : (out6 dir cmd fid val).length = 6 := rfl

/-- An outgoing frame is valid for its direction (R83, R115). -/
theorem frameValid_out6 (dir cmd fid val : Byte) : frameValid dir (out6 dir cmd fid val) = true := by
  simp [frameValid, out6, Config.outLen]

/-- Reading back an outgoing frame gives the instruction of its operands. -/
@[simp] theorem decodeOut6_out6 (dir cmd fid val : Byte) :
    decodeOut6 (out6 dir cmd fid val) = .ok (decodeCommand dir cmd fid val) := rfl

/-- Everything the inbound opcode map can answer (R87, R174). -/
theorem decodeReply_reply (fid : Byte) (payload : List Byte) : (decodeReply fid payload).reply = some (fid, payload) := by
  unfold decodeReply
  iterate 10 (split; · subst_vars; rfl)
  rfl

/-- The map gives `R.OTHER` for the identifiers without a rule of their own, and only for them (R172). -/
theorem decodeReply_eq_rOther {fid : Byte} {payload : List Byte} :
    decodeReply fid payload = .rOther fid payload ↔ Config.recognised.contains fid = false := by
  simp only [decodeReply, Config.recognised]
  constructor
  · intro h
    by_contra hc
    simp only [Bool.not_eq_false, List.contains_eq_mem, List.mem_cons, List.not_mem_nil, or_false, decide_eq_true_eq] at hc
    rcases hc with h1 | h1 | h1 | h1 | h1 | h1 | h1 | h1 | h1 | h1 <;> subst h1 <;> simp_all (decide := true)
  · intro h
    simp only [List.contains_eq_mem, List.mem_cons, List.not_mem_nil, or_false, decide_eq_false_iff_not, not_or] at h
    obtain ⟨h1, h2, h3, h4, h5, h6, h7, h8, h9, h10⟩ := h
    rw [if_neg h1, if_neg h2, if_neg h3, if_neg h4, if_neg h5, if_neg h6, if_neg h7, if_neg h8, if_neg h9, if_neg h10]

/-- An inbound instruction that is well formed is the one its identifier and payload decode to. -/
theorem decodeReply_of_reply {i : Instr} {fid : Byte} {payload : List Byte} (hi : i.reply = some (fid, payload))
    (hw : WellFormed i) : decodeReply fid payload = i := by
  cases i <;> simp only [Instr.reply, Option.some.injEq, Prod.mk.injEq, reduceCtorEq] at hi <;>
    obtain ⟨rfl, rfl⟩ := hi <;> first
    | rfl
    | exact decodeReply_eq_rOther.mpr (by simpa [WellFormed, Instr.wellFormed] using And.left (by simpa [WellFormed, Instr.wellFormed] using hw))

/-- What the decoder gives is well formed (R81, R172). -/
theorem decodeReply_wellFormed {fid : Byte} {payload : List Byte} (h : payload.length ≤ 255) :
    WellFormed (decodeReply fid payload) := by
  by_cases hf : Config.recognised.contains fid = false
  · rw [decodeReply_eq_rOther.mpr hf]
    simp only [WellFormed, Instr.wellFormed, hf]
    exact decide_eq_true h
  · simp only [Bool.not_eq_false, Config.recognised, List.contains_eq_mem, List.mem_cons, List.not_mem_nil, or_false,
      decide_eq_true_eq] at hf
    rcases hf with h1 | h1 | h1 | h1 | h1 | h1 | h1 | h1 | h1 | h1 <;> subst h1 <;> exact decide_eq_true h

/-- The operands an outbound instruction is decoded from are the operands it has (R86, R92). -/
theorem decodeCommand_operands (dir cmd fid val : Byte) :
    (decodeCommand dir cmd fid val).operands = some (dir, cmd, fid, val) := by
  unfold decodeCommand
  repeat' split
  all_goals simp_all [Instr.operands]

/-- A command is decoded to a command. -/
theorem decodeCommand_isCommand (dir cmd fid val : Byte) : (decodeCommand dir cmd fid val).isCommand = true := by
  unfold decodeCommand
  repeat' split
  all_goals rfl

end Sys2Proof
end

