-- ==== Sys2Proof/Laws/State.lean ====
section
/-! SUPPORT. One lemma per field per shared operation, each true by unfolding, so that no proof unfolds an update. -/

namespace Sys2Proof.Machine

variable (s : State)

@[simp] theorem bufAppend_ds (bytes : List Byte) : (bufAppend bytes s).ds = s.ds := rfl
@[simp] theorem bufAppend_buf (bytes : List Byte) : (bufAppend bytes s).buf = s.buf ++ bytes := rfl
@[simp] theorem bufAppend_pass (bytes : List Byte) : (bufAppend bytes s).pass = s.pass := rfl
@[simp] theorem bufAppend_host (bytes : List Byte) : (bufAppend bytes s).host = s.host := rfl
@[simp] theorem bufAppend_transport (bytes : List Byte) : (bufAppend bytes s).transport = s.transport := rfl
@[simp] theorem bufAppend_tx (bytes : List Byte) : (bufAppend bytes s).tx = s.tx := rfl
@[simp] theorem bufAppend_res (bytes : List Byte) : (bufAppend bytes s).res = s.res := rfl
@[simp] theorem bufAppend_snap (bytes : List Byte) : (bufAppend bytes s).snap = s.snap := rfl
@[simp] theorem bufAppend_polled (bytes : List Byte) : (bufAppend bytes s).polled = s.polled := rfl

@[simp] theorem bufDrop_ds (k : Nat) : (bufDrop k s).ds = s.ds := rfl
@[simp] theorem bufDrop_buf (k : Nat) : (bufDrop k s).buf = s.buf.drop k := rfl
@[simp] theorem bufDrop_pass (k : Nat) : (bufDrop k s).pass = s.pass := rfl
@[simp] theorem bufDrop_host (k : Nat) : (bufDrop k s).host = s.host := rfl
@[simp] theorem bufDrop_transport (k : Nat) : (bufDrop k s).transport = s.transport := rfl
@[simp] theorem bufDrop_tx (k : Nat) : (bufDrop k s).tx = s.tx := rfl
@[simp] theorem bufDrop_res (k : Nat) : (bufDrop k s).res = s.res := rfl
@[simp] theorem bufDrop_snap (k : Nat) : (bufDrop k s).snap = s.snap := rfl
@[simp] theorem bufDrop_polled (k : Nat) : (bufDrop k s).polled = s.polled := rfl

@[simp] theorem advance_ds (k : Nat) : (advance k s).ds = s.ds := rfl
@[simp] theorem advance_buf (k : Nat) : (advance k s).buf = s.buf := rfl
@[simp] theorem advance_pos (k : Nat) : (advance k s).pass.pos = s.pass.pos + k := rfl
@[simp] theorem advance_nframes (k : Nat) : (advance k s).pass.nframes = s.pass.nframes := rfl
@[simp] theorem advance_evt (k : Nat) : (advance k s).pass.evt = s.pass.evt := rfl
@[simp] theorem advance_host (k : Nat) : (advance k s).host = s.host := rfl
@[simp] theorem advance_transport (k : Nat) : (advance k s).transport = s.transport := rfl
@[simp] theorem advance_tx (k : Nat) : (advance k s).tx = s.tx := rfl
@[simp] theorem advance_res (k : Nat) : (advance k s).res = s.res := rfl
@[simp] theorem advance_snap (k : Nat) : (advance k s).snap = s.snap := rfl
@[simp] theorem advance_polled (k : Nat) : (advance k s).polled = s.polled := rfl

@[simp] theorem raise_ds (e : Event) : (raise e s).ds = s.ds := rfl
@[simp] theorem raise_buf (e : Event) : (raise e s).buf = s.buf := rfl
@[simp] theorem raise_pos (e : Event) : (raise e s).pass.pos = s.pass.pos := rfl
@[simp] theorem raise_nframes (e : Event) : (raise e s).pass.nframes = s.pass.nframes := rfl
@[simp] theorem raise_evt (e : Event) : (raise e s).pass.evt = s.pass.evt ++ [e] := rfl
@[simp] theorem raise_host (e : Event) : (raise e s).host = s.host := rfl
@[simp] theorem raise_transport (e : Event) : (raise e s).transport = s.transport := rfl
@[simp] theorem raise_tx (e : Event) : (raise e s).tx = s.tx := rfl
@[simp] theorem raise_res (e : Event) : (raise e s).res = s.res := rfl
@[simp] theorem raise_snap (e : Event) : (raise e s).snap = s.snap := rfl
@[simp] theorem raise_polled (e : Event) : (raise e s).polled = s.polled := rfl

@[simp] theorem writeDs_ds (d : DeviceState) : (writeDs d s).ds = d := rfl
@[simp] theorem writeDs_buf (d : DeviceState) : (writeDs d s).buf = s.buf := rfl
@[simp] theorem writeDs_pass (d : DeviceState) : (writeDs d s).pass = s.pass := rfl
@[simp] theorem writeDs_host (d : DeviceState) : (writeDs d s).host = s.host := rfl
@[simp] theorem writeDs_transport (d : DeviceState) : (writeDs d s).transport = s.transport := rfl
@[simp] theorem writeDs_tx (d : DeviceState) : (writeDs d s).tx = s.tx := rfl
@[simp] theorem writeDs_res (d : DeviceState) : (writeDs d s).res = s.res := rfl
@[simp] theorem writeDs_snap (d : DeviceState) : (writeDs d s).snap = s.snap := rfl
@[simp] theorem writeDs_polled (d : DeviceState) : (writeDs d s).polled = s.polled := rfl

@[simp] theorem resync_ds : (resync s).ds = s.ds := rfl
@[simp] theorem resync_buf : (resync s).buf = s.buf := rfl
@[simp] theorem resync_pos : (resync s).pass.pos = s.pass.pos + 1 := rfl
@[simp] theorem resync_nframes : (resync s).pass.nframes = s.pass.nframes := rfl
@[simp] theorem resync_evt : (resync s).pass.evt = s.pass.evt := rfl
@[simp] theorem resync_host : (resync s).host = s.host := rfl
@[simp] theorem resync_transport : (resync s).transport = s.transport := rfl
@[simp] theorem resync_tx : (resync s).tx = s.tx := rfl
@[simp] theorem resync_res : (resync s).res = s.res := rfl
@[simp] theorem resync_snap : (resync s).snap = s.snap := rfl
@[simp] theorem resync_polled : (resync s).polled = s.polled := rfl

@[simp] theorem takeChecksumError_ds (fid : Byte) (length : Nat) (c r : Byte) : (takeChecksumError fid length c r s).ds = s.ds := rfl
@[simp] theorem takeChecksumError_buf (fid : Byte) (length : Nat) (c r : Byte) : (takeChecksumError fid length c r s).buf = s.buf := rfl
@[simp] theorem takeChecksumError_pos (fid : Byte) (length : Nat) (c r : Byte) : (takeChecksumError fid length c r s).pass.pos = s.pass.pos + 1 := rfl
@[simp] theorem takeChecksumError_nframes (fid : Byte) (length : Nat) (c r : Byte) : (takeChecksumError fid length c r s).pass.nframes = s.pass.nframes := rfl
@[simp] theorem takeChecksumError_evt (fid : Byte) (length : Nat) (c r : Byte) : (takeChecksumError fid length c r s).pass.evt = s.pass.evt ++ [.checksumError fid length c r] := rfl
@[simp] theorem takeChecksumError_host (fid : Byte) (length : Nat) (c r : Byte) : (takeChecksumError fid length c r s).host = s.host := rfl
@[simp] theorem takeChecksumError_transport (fid : Byte) (length : Nat) (c r : Byte) : (takeChecksumError fid length c r s).transport = s.transport := rfl
@[simp] theorem takeChecksumError_tx (fid : Byte) (length : Nat) (c r : Byte) : (takeChecksumError fid length c r s).tx = s.tx := rfl
@[simp] theorem takeChecksumError_res (fid : Byte) (length : Nat) (c r : Byte) : (takeChecksumError fid length c r s).res = s.res := rfl
@[simp] theorem takeChecksumError_snap (fid : Byte) (length : Nat) (c r : Byte) : (takeChecksumError fid length c r s).snap = s.snap := rfl
@[simp] theorem takeChecksumError_polled (fid : Byte) (length : Nat) (c r : Byte) : (takeChecksumError fid length c r s).polled = s.polled := rfl

@[simp] theorem consumeFrame_ds (n : Nat) : (consumeFrame n s).ds = s.ds := rfl
@[simp] theorem consumeFrame_buf (n : Nat) : (consumeFrame n s).buf = s.buf := rfl
@[simp] theorem consumeFrame_pos (n : Nat) : (consumeFrame n s).pass.pos = s.pass.pos + (n + Config.inOverhead) := rfl
@[simp] theorem consumeFrame_nframes (n : Nat) : (consumeFrame n s).pass.nframes = s.pass.nframes + 1 := rfl
@[simp] theorem consumeFrame_evt (n : Nat) : (consumeFrame n s).pass.evt = s.pass.evt := rfl
@[simp] theorem consumeFrame_host (n : Nat) : (consumeFrame n s).host = s.host := rfl
@[simp] theorem consumeFrame_transport (n : Nat) : (consumeFrame n s).transport = s.transport := rfl
@[simp] theorem consumeFrame_tx (n : Nat) : (consumeFrame n s).tx = s.tx := rfl
@[simp] theorem consumeFrame_res (n : Nat) : (consumeFrame n s).res = s.res := rfl
@[simp] theorem consumeFrame_snap (n : Nat) : (consumeFrame n s).snap = s.snap := rfl
@[simp] theorem consumeFrame_polled (n : Nat) : (consumeFrame n s).polled = s.polled := rfl

@[simp] theorem startPass_ds (bytes : List Byte) : (startPass bytes s).ds = s.ds := rfl
@[simp] theorem startPass_buf (bytes : List Byte) : (startPass bytes s).buf = s.buf ++ bytes := rfl
@[simp] theorem startPass_pass (bytes : List Byte) : (startPass bytes s).pass = Pass.start := rfl
@[simp] theorem startPass_host (bytes : List Byte) : (startPass bytes s).host = s.host := rfl
@[simp] theorem startPass_transport (bytes : List Byte) : (startPass bytes s).transport = s.transport := rfl
@[simp] theorem startPass_tx (bytes : List Byte) : (startPass bytes s).tx = s.tx := rfl
@[simp] theorem startPass_res (bytes : List Byte) : (startPass bytes s).res = s.res := rfl
@[simp] theorem startPass_snap (bytes : List Byte) : (startPass bytes s).snap = s.snap := rfl
@[simp] theorem startPass_polled (bytes : List Byte) : (startPass bytes s).polled = s.polled := rfl

@[simp] theorem finishPass_ds : (finishPass s).ds = s.ds := rfl
@[simp] theorem finishPass_buf : (finishPass s).buf = s.buf.drop s.pass.pos := rfl
@[simp] theorem finishPass_pass : (finishPass s).pass = Pass.start := rfl
@[simp] theorem finishPass_host : (finishPass s).host = s.host := rfl
@[simp] theorem finishPass_transport : (finishPass s).transport = s.transport := rfl
@[simp] theorem finishPass_tx : (finishPass s).tx = s.tx := rfl
@[simp] theorem finishPass_res : (finishPass s).res = s.res ++ [s.pass.result] := rfl
@[simp] theorem finishPass_snap : (finishPass s).snap = s.snap := rfl
@[simp] theorem finishPass_polled : (finishPass s).polled = s.polled := rfl

@[simp] theorem transmit_ds (frame : List Byte) : (transmit frame s).ds = s.ds := rfl
@[simp] theorem transmit_buf (frame : List Byte) : (transmit frame s).buf = s.buf := rfl
@[simp] theorem transmit_pass (frame : List Byte) : (transmit frame s).pass = s.pass := rfl
@[simp] theorem transmit_host (frame : List Byte) : (transmit frame s).host = s.host := rfl
@[simp] theorem transmit_transport (frame : List Byte) : (transmit frame s).transport = s.transport := rfl
@[simp] theorem transmit_tx (frame : List Byte) : (transmit frame s).tx = s.tx ++ [frame] := rfl
@[simp] theorem transmit_res (frame : List Byte) : (transmit frame s).res = s.res := rfl
@[simp] theorem transmit_snap (frame : List Byte) : (transmit frame s).snap = s.snap := rfl
@[simp] theorem transmit_polled (frame : List Byte) : (transmit frame s).polled = s.polled := rfl

@[simp] theorem presentSnap_ds : (presentSnap s).ds = s.ds := rfl
@[simp] theorem presentSnap_buf : (presentSnap s).buf = s.buf := rfl
@[simp] theorem presentSnap_pass : (presentSnap s).pass = s.pass := rfl
@[simp] theorem presentSnap_host : (presentSnap s).host = s.host := rfl
@[simp] theorem presentSnap_transport : (presentSnap s).transport = s.transport := rfl
@[simp] theorem presentSnap_tx : (presentSnap s).tx = s.tx := rfl
@[simp] theorem presentSnap_res : (presentSnap s).res = s.res := rfl
@[simp] theorem presentSnap_snap : (presentSnap s).snap = s.snap ++ [s.ds] := rfl
@[simp] theorem presentSnap_polled : (presentSnap s).polled = s.polled := rfl

@[simp] theorem returnPoll_ds (b : Bool) : (returnPoll b s).ds = s.ds := rfl
@[simp] theorem returnPoll_buf (b : Bool) : (returnPoll b s).buf = s.buf := rfl
@[simp] theorem returnPoll_pass (b : Bool) : (returnPoll b s).pass = s.pass := rfl
@[simp] theorem returnPoll_host (b : Bool) : (returnPoll b s).host = s.host := rfl
@[simp] theorem returnPoll_transport (b : Bool) : (returnPoll b s).transport = s.transport := rfl
@[simp] theorem returnPoll_tx (b : Bool) : (returnPoll b s).tx = s.tx := rfl
@[simp] theorem returnPoll_res (b : Bool) : (returnPoll b s).res = s.res := rfl
@[simp] theorem returnPoll_snap (b : Bool) : (returnPoll b s).snap = s.snap := rfl
@[simp] theorem returnPoll_polled (b : Bool) : (returnPoll b s).polled = s.polled ++ [b] := rfl

@[simp] theorem start_pos : Pass.start.pos = 0 := rfl
@[simp] theorem start_nframes : Pass.start.nframes = 0 := rfl
@[simp] theorem start_evt : Pass.start.evt = [] := rfl
@[simp] theorem result_updated (p : Pass) : p.result.updated = decide (0 < p.nframes) := rfl
@[simp] theorem result_nframes (p : Pass) : p.result.nframes = p.nframes := rfl
@[simp] theorem result_evt (p : Pass) : p.result.evt = p.evt := rfl

/-- Two states with the same fields are the same state. -/
theorem state_ext {s t : State} (h1 : s.ds = t.ds) (h2 : s.buf = t.buf) (h3 : s.pass = t.pass) (h4 : s.host = t.host)
    (h5 : s.transport = t.transport) (h6 : s.tx = t.tx) (h7 : s.res = t.res) (h8 : s.snap = t.snap)
    (h9 : s.polled = t.polled) : s = t := by
  cases s; cases t; simp_all

/-- Two passes with the same registers are the same pass. -/
theorem pass_ext {p q : Pass} (h1 : p.pos = q.pos) (h2 : p.nframes = q.nframes) (h3 : p.evt = q.evt) : p = q := by
  cases p; cases q; simp_all

end Sys2Proof.Machine
end

