-- ==== Sys2Proof/Laws/Operands.lean ====
section
/-! SUPPORT. What the operand forms give. -/

namespace Sys2Proof.Machine

/-- `F32LE` as a number (R52). -/
theorem f32LE_toNat (b0 b1 b2 b3 : Byte) :
    (f32LE b0 b1 b2 b3).toNat = b0.toNat + 256 * b1.toNat + 65536 * b2.toNat + 16777216 * b3.toNat := by
  have := b0.isLt; have := b1.isLt; have := b2.isLt; have := b3.isLt
  simp only [f32LE, BitVec.toNat_ofNat]
  omega

/-- `F32LE` as a concatenation: the byte at the lowest offset is the least significant (R51). -/
theorem f32LE_eq_append (b0 b1 b2 b3 : Byte) : f32LE b0 b1 b2 b3 = b3 ++ b2 ++ b1 ++ b0 := by
  apply BitVec.eq_of_toNat_eq
  have := b0.isLt; have := b1.isLt; have := b2.isLt; have := b3.isLt
  rw [f32LE_toNat]
  simp only [BitVec.toNat_append]
  rw [← Nat.shiftLeft_add_eq_or_of_lt (by omega), ← Nat.shiftLeft_add_eq_or_of_lt (by omega),
    ← Nat.shiftLeft_add_eq_or_of_lt (by omega)]
  simp only [Nat.shiftLeft_eq]
  omega

/-- `F32At` on the bytes it reads (R52). -/
theorem f32At_eq (payload : List Byte) (off : Nat) (h : off + 4 ≤ payload.length) :
    f32At payload off h = payload[off + 3] ++ payload[off + 2] ++ payload[off + 1] ++ payload[off] :=
  f32LE_eq_append ..

/-- `Bool1` is comparison with 1 (R53). -/
theorem bool1_eq (b : Byte) : bool1 b = decide (b.toNat = 1) := by
  rw [bool1, beq_eq_decide, decide_eq_decide]
  constructor
  · rintro rfl; rfl
  · intro h; exact BitVec.eq_of_toNat_eq h

/-- A text is well formed when every byte is at most 0x7F (R173). -/
theorem isAscii_iff (payload : List Byte) : isAscii payload = true ↔ ∀ b ∈ payload, b.toNat ≤ 0x7F := by
  simp [isAscii]

/-- The cells of the buffer space are in the one form, in every state, so every operation on the buffer keeps it. -/
theorem memoryCells_wf (s : State) : Memory.wf (memoryCells s) := by
  simp [Memory.wf, memoryCells, List.map_map, Function.comp_def, List.zipIdx_map_snd, List.pairwise_lt_range']

/-- The frame consumed after a write (R135). -/
theorem consumeFrame_writeDs (n : Nat) (d : DeviceState) (s : State) :
    consumeFrame n (writeDs d s) = s.afterFrame d n [] := by
  simp [consumeFrame, writeDs, State.afterFrame, advance, Pass.countFrame, Config.inOverhead, Nat.add_assoc]

/-- The frame consumed after an event (R135). -/
theorem consumeFrame_raise (n : Nat) (e : Event) (s : State) :
    consumeFrame n (raise e s) = s.afterFrame s.ds n [e] := by
  simp [consumeFrame, raise, State.afterFrame, advance, Pass.countFrame, Config.inOverhead, Nat.add_assoc]

end Sys2Proof.Machine
end

