-- ==== Sys2Proof/Laws/Stream.lean ====
section
/-! SUPPORT. What a decode pass can do. One position is `verdictMove`, a scan is `walk` over the bytes that remain, and
a pass is `feedPass_eq`; every fact about a pass is a fact about `walk`, which mentions no state but DS. -/

namespace Sys2Proof.Machine

/-! ### Dispatch -/

/-- A dispatch rule either writes DS or raises one event (R160, R209). -/
theorem dispatch_cases (fid : Byte) (payload : List Byte) (s : State) :
    (∃ d, dispatch fid payload s = writeDs d s) ∨ ∃ e, dispatch fid payload s = raise e s := by
  simp only [dispatch]
  iterate 10
    split
    · simp only [replyVin, replyOut, replyTemp, replyOutEn, replyModel, replyHwVer, replyFwVer, replyVMax, replyIMax,
        replyAll, textField]
      split <;> first
        | exact .inl ⟨_, rfl⟩
        | exact .inr ⟨_, rfl⟩
  exact .inr ⟨_, rfl⟩

/-- Everything a dispatch rule does (R160, R210): it replaces DS and appends events, as `dispatchEffect` says, and
touches nothing else. -/
theorem dispatch_eq (fid : Byte) (payload : List Byte) (s : State) :
    dispatch fid payload s =
      { s with
        ds := (dispatchEffect s.ds fid payload).1
        pass := { s.pass with evt := s.pass.evt ++ (dispatchEffect s.ds fid payload).2 } } := by
  simp only [dispatchEffect, dispatch]
  iterate 10
    split
    · simp only [replyVin, replyOut, replyTemp, replyOutEn, replyModel, replyHwVer, replyFwVer, replyVMax, replyIMax,
        replyAll, textField]
      split <;> simp [shortPayload, writeDs, raise, State.reset, Pass.start]
  simp [replyOther, raise, State.reset, Pass.start]

/-- A dispatch rule raises at most one event, and one that raises an event writes nothing (R207, R209, R210). -/
theorem dispatchEffect_event (d : DeviceState) (fid : Byte) (payload : List Byte) :
    (dispatchEffect d fid payload).2 = [] ∨ ∃ e, dispatchEffect d fid payload = (d, [e]) := by
  rcases dispatch_cases fid payload { State.reset with ds := d } with ⟨x, h⟩ | ⟨e, h⟩
  · exact .inl (congrArg (fun t => t.pass.evt) h)
  · exact .inr ⟨e, congrArg (fun t => (t.ds, t.pass.evt)) h⟩

/-- The pass runs the meaning of the instruction that stands at the position: dispatch and the consumption of the frame
are `exec` of the decoded instruction (R135, R160). -/
theorem exec_decodeReply (fid : Byte) (payload : List Byte) (s : State) :
    exec (decodeReply fid payload) s = .next (consumeFrame payload.length (dispatch fid payload s)) := by
  simp only [decodeReply, dispatch]
  iterate 10 (split; · rfl)
  rfl

/-! ### One position -/

/-- What the scan does with a verdict (R131 to R135): the DeviceState after it, by how much `pos` and `nframes` grow,
and the events; none where it stops. -/
def verdictMove (d : DeviceState) : Verdict → Option (DeviceState × Nat × Nat × List Event)
  | .tooFew => none
  | .notStart => some (d, 1, 0, [])
  | .incomplete => none
  | .badChecksum fid length c r => some (d, 1, 0, [.checksumError fid length c r])
  | .frame fid payload =>
    some ((dispatchEffect d fid payload).1, payload.length + 5, 1, (dispatchEffect d fid payload).2)

/-- Everything one position of the scan does. -/
theorem scanStep_eq (s : State) :
    scanStep s = (verdictMove s.ds (examine (rest s))).map fun m =>
      { s with ds := m.1, pass := ⟨s.pass.pos + m.2.1, s.pass.nframes + m.2.2.1, s.pass.evt ++ m.2.2.2⟩ } := by
  simp only [scanStep]
  cases examine (rest s) with
  | tooFew => rfl
  | notStart => simp [verdictMove, resync, advance]
  | incomplete => rfl
  | badChecksum fid length c r => rfl
  | frame fid payload =>
    simp only [verdictMove, Option.map_some, dispatch_eq fid payload s]
    rfl

/-- The scan stops at a position exactly where the bytes from it on are settled. -/
theorem verdictMove_eq_none {d : DeviceState} {b : List Byte} : verdictMove d (examine b) = none ↔ settled b := by
  cases h : examine b <;> simp [verdictMove, settled, h]

/-- Where the scan goes on there are at least six bytes, and it goes on by one byte or more, within them (R142). -/
theorem verdictMove_bounds {d : DeviceState} {b : List Byte} {m : DeviceState × Nat × Nat × List Event}
    (h : verdictMove d (examine b) = some m) : 6 ≤ b.length ∧ 1 ≤ m.2.1 ∧ m.2.1 ≤ b.length ∧ m.2.2.1 ≤ 1 := by
  rcases examine_cases b with ⟨h1, -⟩ | ⟨b0, b1, fid, len, rest, rfl, h2, ⟨h3, -⟩ | ⟨-, -, h3, -⟩ |
      ⟨payload, c, tail, -, -, rfl, -, -, h3⟩ | ⟨payload, tail, -, -, rfl, -, h3⟩⟩
  · simp [h1, verdictMove] at h
  · simp only [h3, verdictMove, Option.some.injEq] at h; subst h; simp; omega
  · simp [h3, verdictMove] at h
  · simp only [h3, verdictMove, Option.some.injEq] at h; subst h; simp at h2 ⊢; omega
  · simp only [h3, verdictMove, Option.some.injEq] at h; subst h; simp at h2 ⊢; omega

/-- What the scan does at a position it does also when more bytes have arrived (R144). -/
theorem verdictMove_append {d : DeviceState} {b : List Byte} {m : DeviceState × Nat × Nat × List Event}
    (h : verdictMove d (examine b) = some m) (more : List Byte) : verdictMove d (examine (b ++ more)) = some m := by
  rw [examine_append _ more, h]
  intro hs
  rw [verdictMove_eq_none.mpr hs] at h
  cases h

/-- A residual has at most 259 bytes (R143). -/
theorem settled_length {b : List Byte} (h : settled b) : b.length ≤ 259 := by
  rcases examine_cases b with ⟨-, h1⟩ | ⟨b0, b1, fid, len, rest, rfl, h2, ⟨h3, -⟩ | ⟨-, -, -, h3⟩ |
      ⟨payload, c, tail, -, -, -, -, -, h3⟩ | ⟨payload, tail, -, -, -, -, h3⟩⟩
  · omega
  · simp [settled, h3] at h
  · have := len.isLt; simp; omega
  · simp [settled, h3] at h
  · simp [settled, h3] at h

/-! ### A scan -/

/-- What a scan of some bytes makes: the DeviceState, how far it went, how many frames, which events. -/
structure Walk where
  ds : DeviceState
  pos : Nat
  nframes : Nat
  evt : List Event

/-- One move before a walk. -/
def Walk.after (m : DeviceState × Nat × Nat × List Event) (w : Walk) : Walk :=
  ⟨w.ds, m.2.1 + w.pos, m.2.2.1 + w.nframes, m.2.2.2 ++ w.evt⟩

/-- A scan of the bytes `b` from DeviceState `d`, at most `fuel` positions on. -/
def walk : Nat → DeviceState → List Byte → Walk
  | 0, d, _ => ⟨d, 0, 0, []⟩
  | fuel + 1, d, b =>
    match verdictMove d (examine b) with
    | none => ⟨d, 0, 0, []⟩
    | some m => (walk fuel m.1 (b.drop m.2.1)).after m

theorem walk_none {fuel : Nat} {d : DeviceState} {b : List Byte} (h : settled b) : walk fuel d b = ⟨d, 0, 0, []⟩ := by
  cases fuel with
  | zero => rfl
  | succ n => rw [walk, verdictMove_eq_none.mpr h]

theorem walk_some {fuel : Nat} {d : DeviceState} {b : List Byte} {m : DeviceState × Nat × Nat × List Event}
    (h : verdictMove d (examine b) = some m) : walk (fuel + 1) d b = (walk fuel m.1 (b.drop m.2.1)).after m := by
  rw [walk, h]

/-- A scan is a walk over the bytes that remain. -/
theorem scan_eq_walk (fuel : Nat) (s : State) :
    scan fuel s =
      { s with
        ds := (walk fuel s.ds (rest s)).ds
        pass := ⟨s.pass.pos + (walk fuel s.ds (rest s)).pos, s.pass.nframes + (walk fuel s.ds (rest s)).nframes,
          s.pass.evt ++ (walk fuel s.ds (rest s)).evt⟩ } := by
  induction fuel generalizing s with
  | zero => simp [scan, walk]
  | succ n ih =>
    simp only [scan, scanStep_eq]
    cases h : verdictMove s.ds (examine (rest s)) with
    | none => simp [walk_none (verdictMove_eq_none.mp h)]
    | some m =>
      rw [walk_some h]
      simp [ih, rest, Walk.after, Nat.add_assoc]

/-- Six bytes less than there are, and one, are moves enough (R142). -/
theorem walk_fuel {f g : Nat} {d : DeviceState} {b : List Byte} (hf : b.length ≤ f + 5) (hg : b.length ≤ g + 5) :
    walk f d b = walk g d b := by
  induction f generalizing g d b with
  | zero => rw [walk_none (.inl (examine_of_short (by omega))), walk_none (.inl (examine_of_short (by omega)))]
  | succ n ih =>
    cases h : verdictMove d (examine b) with
    | none =>
      have := verdictMove_eq_none.mp h
      rw [walk_none this, walk_none this]
    | some m =>
      have := verdictMove_bounds h
      obtain ⟨g, rfl⟩ : ∃ k, g = k + 1 := ⟨g - 1, by omega⟩
      rw [walk_some h, walk_some h, ih (g := g) (by simp; omega) (by simp; omega)]

/-- A walk stays within its bytes (R28). -/
theorem walk_pos_le (f : Nat) (d : DeviceState) (b : List Byte) : (walk f d b).pos ≤ b.length := by
  induction f generalizing d b with
  | zero => simp [walk]
  | succ n ih =>
    cases h : verdictMove d (examine b) with
    | none => simp [walk_none (verdictMove_eq_none.mp h)]
    | some m =>
      have h1 := verdictMove_bounds h
      have h2 := ih m.1 (b.drop m.2.1)
      simp only [List.length_drop] at h2
      simp only [walk_some h, Walk.after]
      omega

/-- A walk with moves enough stops where a step says stop (R142). -/
theorem walk_settled {f : Nat} {d : DeviceState} {b : List Byte} (hf : b.length ≤ f + 5) :
    settled (b.drop (walk f d b).pos) := by
  induction f generalizing d b with
  | zero => exact .inl (examine_of_short (by simp; omega))
  | succ n ih =>
    cases h : verdictMove d (examine b) with
    | none =>
      have h1 := verdictMove_eq_none.mp h
      simpa [walk_none h1] using h1
    | some m =>
      have h1 := verdictMove_bounds h
      have h2 := ih (d := m.1) (b := b.drop m.2.1) (by simp; omega)
      simpa [walk_some h, Walk.after, Nat.add_comm] using h2

/-- A walk over bytes and more bytes is the walk over the bytes, then the walk over what it left and the rest (R144). -/
theorem walk_append {f g h : Nat} {d : DeviceState} {a b : List Byte} (hf : a.length ≤ f + 5)
    (hg : (a ++ b).length ≤ g + 5) (hh : (a.drop (walk f d a).pos ++ b).length ≤ h + 5) :
    walk g d (a ++ b) =
      let w := walk f d a
      let v := walk h w.ds (a.drop w.pos ++ b)
      ⟨v.ds, w.pos + v.pos, w.nframes + v.nframes, w.evt ++ v.evt⟩ := by
  induction f generalizing g d a with
  | zero =>
    simp only [walk, List.drop_zero, Nat.zero_add, List.nil_append] at hh ⊢
    exact walk_fuel hg hh
  | succ n ih =>
    cases hm : verdictMove d (examine a) with
    | none =>
      have h1 := verdictMove_eq_none.mp hm
      simp only [walk_none h1, List.drop_zero, Nat.zero_add, List.nil_append] at hh ⊢
      exact walk_fuel hg hh
    | some m =>
      have h1 := verdictMove_bounds hm
      simp only [List.length_append] at hg
      obtain ⟨g, rfl⟩ : ∃ k, g = k + 1 := ⟨g - 1, by omega⟩
      have h2 : (a ++ b).drop m.2.1 = a.drop m.2.1 ++ b := List.drop_append_of_le_length h1.2.2.1
      simp only [walk_some hm, Walk.after, ← List.drop_drop] at hh ⊢
      rw [walk_some (verdictMove_append hm b), h2,
        ih (g := g) (d := m.1) (a := a.drop m.2.1) (by simp; omega) (by simp; omega) hh]
      simp only [Walk.after, Nat.add_assoc, List.append_assoc]

/-! ### A pass -/

/-- The walk of a whole pass over the bytes `b`. -/
def wholeWalk (d : DeviceState) (b : List Byte) : Walk := walk b.length d b

/-- Everything a pass does: DS and the result are those of the walk over the residual and the fed bytes, and the bytes
before its end are dropped (R130, R136). -/
theorem feedPass_eq (bytes : List Byte) (s : State) :
    feedPass bytes s =
      let w := wholeWalk s.ds (s.buf ++ bytes)
      { s with
        ds := w.ds
        buf := (s.buf ++ bytes).drop w.pos
        pass := Pass.start
        res := s.res ++ [⟨decide (0 < w.nframes), w.nframes, w.evt⟩] } := by
  simp [feedPass, runPass, scan_eq_walk, startPass, finishPass, wholeWalk, rest, bufAppend, bufDrop, Pass.result,
    Pass.updated, Pass.start]

/-- A pass leaves a residual (R136, R142). -/
theorem feedPass_settled (bytes : List Byte) (s : State) : settled (feedPass bytes s).buf := by
  rw [feedPass_eq]
  exact walk_settled (by omega)

/-- The walk of a pass, one move at a time. -/
theorem wholeWalk_some {d : DeviceState} {b : List Byte} {m : DeviceState × Nat × Nat × List Event}
    (h : verdictMove d (examine b) = some m) : wholeWalk d b = (wholeWalk m.1 (b.drop m.2.1)).after m := by
  have h1 := verdictMove_bounds h
  rw [wholeWalk, walk_fuel (g := (b.length - 1) + 1) (by omega) (by omega), walk_some h, wholeWalk,
    walk_fuel (g := (b.drop m.2.1).length) (by simp; omega) (by omega)]

/-- On a residual a pass does nothing. -/
theorem wholeWalk_none {d : DeviceState} {b : List Byte} (h : settled b) : wholeWalk d b = ⟨d, 0, 0, []⟩ := walk_none h

/-- Induction over a pass: a fact about the walk of some bytes holds if it holds of a residual and every move keeps it. -/
theorem wholeWalk_induction {P : DeviceState → List Byte → Prop} (stop : ∀ d b, settled b → P d b)
    (move : ∀ d b m, verdictMove d (examine b) = some m → P m.1 (b.drop m.2.1) → P d b) (d : DeviceState)
    (b : List Byte) : P d b := by
  have go : ∀ n d b, b.length ≤ n → P d b := by
    intro n
    induction n with
    | zero => exact fun d b h => stop d b (.inl (examine_of_short (by omega)))
    | succ n ih =>
      intro d b h
      cases hm : verdictMove d (examine b) with
      | none => exact stop d b (verdictMove_eq_none.mp hm)
      | some m =>
        have h1 := verdictMove_bounds hm
        exact move d b m hm (ih m.1 _ (by simp; omega))
  exact go b.length d b (Nat.le_refl _)

end Sys2Proof.Machine
end

