-- ==== Sys2Proof/Laws/Machine.lean ====
section
/-! SUPPORT. Everything the fetch, a step, a feed and a poll can do: one lemma each. -/

namespace Sys2Proof.Machine

/-- Everything `fetch` can do. -/
theorem fetch_cases (s : State) :
    (s.host = [] ∧ fetch s = none) ∨
    ∃ op ops, s.host = op :: ops ∧ fetch s = some (decodeOp op, { s with host := ops }) := by
  unfold fetch
  split
  · exact .inl ⟨‹_›, rfl⟩
  · exact .inr ⟨_, _, ‹_›, rfl⟩

/-- Everything a step can do: nothing, or the next operation. -/
theorem step_cases (s : State) :
    (s.host = [] ∧ step s = .next s) ∨
    ∃ op ops, s.host = op :: ops ∧ step s = exec (decodeOp op) { s with host := ops } := by
  rcases fetch_cases s with ⟨h, hf⟩ | ⟨op, ops, h, hf⟩
  · exact .inl ⟨h, by rw [step, hf]⟩
  · exact .inr ⟨op, ops, h, by rw [step, hf]⟩

/-- The host asks for no inbound instruction: those run inside a pass. -/
theorem decodeOp_isReply (op : HostOp) : (decodeOp op).isReply = false := by
  cases op with
  | cmd dir cmd fid val =>
    have := decodeCommand_isCommand dir cmd fid val
    simp only [decodeOp]
    cases h : decodeCommand dir cmd fid val <;> simp_all [Instr.isCommand, Instr.isReply]
  | _ => rfl

/-- Everything a feed can do. -/
theorem execFeed_cases (bytes : List Byte) (s : State) :
    (bytes.length ≤ Config.maxFeed ∧ execFeed bytes s = .next (feedPass bytes s)) ∨
    (Config.maxFeed < bytes.length ∧ execFeed bytes s = .refused (.feedTooLong bytes.length)) := by
  by_cases h : bytes.length ≤ Config.maxFeed
  · exact .inl ⟨h, if_pos (decide_eq_true h)⟩
  · exact .inr ⟨Nat.lt_of_not_le h, if_neg (by simpa [Config.feedFits] using h)⟩

/-- What a poll's pass does: the feed of its bytes, and the boolean (R194). -/
theorem pollPass_eq (bytes : List Byte) (s : State) :
    pollPass bytes s = returnPoll (decide (0 < (wholeWalk s.ds (s.buf ++ bytes)).nframes)) (feedPass bytes s) := by
  simp [pollPass, feedPass, runPass, scan_eq_walk, startPass, wholeWalk, rest, bufAppend, Pass.updated, Pass.start]

/-- Everything a poll can do. -/
theorem execPoll_cases (s : State) :
    (∃ reads, (s.transport = [] ∧ reads = [] ∨ s.transport = .failed :: reads ∨ s.transport = .bytes [] :: reads) ∧
      execPoll s = .next (returnPoll false { s with transport := reads })) ∨
    (∃ bytes reads, s.transport = .bytes bytes :: reads ∧ bytes ≠ [] ∧ bytes.length ≤ Config.maxFeed ∧
      execPoll s = .next (pollPass bytes { s with transport := reads })) ∨
    (∃ bytes reads, s.transport = .bytes bytes :: reads ∧ Config.maxFeed < bytes.length ∧
      execPoll s = .refused (.feedTooLong bytes.length)) := by
  cases h : s.transport with
  | nil =>
    refine .inl ⟨[], .inl ⟨rfl, rfl⟩, ?_⟩
    simp only [execPoll, h, returnPoll]
  | cons r reads =>
    cases r with
    | failed => exact .inl ⟨reads, .inr (.inl rfl), by rw [execPoll, h]⟩
    | bytes bytes =>
      by_cases hb : bytes = []
      · subst hb
        exact .inl ⟨reads, .inr (.inr rfl), by rw [execPoll, h]; rfl⟩
      · by_cases hf : bytes.length ≤ Config.maxFeed
        · refine .inr (.inl ⟨bytes, reads, rfl, hb, hf, ?_⟩)
          rw [execPoll, h]
          exact (if_neg hb).trans (if_pos (decide_eq_true hf))
        · refine .inr (.inr ⟨bytes, reads, rfl, Nat.lt_of_not_le hf, ?_⟩)
          rw [execPoll, h]
          exact (if_neg hb).trans (if_neg (by simpa [Config.feedFits] using hf))

/-- A command presents the frame of its operands, and does nothing else (R110 to R114, R191 to R193). -/
theorem exec_of_operands {i : Instr} {dir cmd fid val : Byte} (h : i.operands = some (dir, cmd, fid, val)) (s : State) :
    exec i s = .next (transmit (out6 dir cmd fid val) s) := by
  cases i <;> simp only [Instr.operands, Option.some.injEq, Prod.mk.injEq, reduceCtorEq] at h <;>
    obtain ⟨rfl, rfl, rfl, rfl⟩ := h <;> rfl

end Sys2Proof.Machine
end

