-- ==== Sys2Proof/Laws/PerInstr.lean ====
section
/-! SUPPORT. The statements made per instruction. `EncodedSize`: how long an instruction's frame is (R80, R82). -/

namespace Sys2Proof.Laws

/-- A command's frame has six bytes (R80), a well-formed inbound instruction's from 5 to 260 (R82); the others have
none. -/
def EncodedSize.Statement (i : Instr) : Prop :=
  WellFormed i → ∀ w, encode i = some w →
    (i.isCommand = true ∧ w.length = 6) ∨ (i.isReply = true ∧ 5 ≤ w.length ∧ w.length ≤ 260)

theorem EncodedSize.of_command {i : Instr} {d c f v : Byte} (hc : i.isCommand = true)
    (ho : i.operands = some (d, c, f, v)) : EncodedSize.Statement i := by
  intro _ w h
  rw [encode, ho] at h
  cases h
  exact .inl ⟨hc, rfl⟩

theorem EncodedSize.of_reply {i : Instr} {f : Byte} {p : List Byte} (hc : i.isReply = true)
    (ho : i.operands = none) (hr : i.reply = some (f, p)) (hp : WellFormed i → p.length ≤ 255) :
    EncodedSize.Statement i := by
  intro hw w h
  rw [encode, ho, hr] at h
  cases h
  have := hp hw
  exact .inr ⟨hc, by simp, by simp; omega⟩

theorem EncodedSize.of_none {i : Instr} (h : encode i = none) : EncodedSize.Statement i := by
  intro _ w hw
  rw [h] at hw
  cases hw

theorem EncodedSize.enc (dir cmd fid val : Byte) : EncodedSize.Statement (.enc dir cmd fid val) := EncodedSize.of_command rfl rfl
theorem EncodedSize.get (fid : Byte) : EncodedSize.Statement (.get fid) := EncodedSize.of_command rfl rfl
theorem EncodedSize.set (fid val : Byte) : EncodedSize.Statement (.set fid val) := EncodedSize.of_command rfl rfl
theorem EncodedSize.initC0 (fid val : Byte) : EncodedSize.Statement (.initC0 fid val) := EncodedSize.of_command rfl rfl
theorem EncodedSize.initC1 (fid val : Byte) : EncodedSize.Statement (.initC1 fid val) := EncodedSize.of_command rfl rfl
theorem EncodedSize.requestAll : EncodedSize.Statement .requestAll := EncodedSize.of_command rfl rfl
theorem EncodedSize.enable : EncodedSize.Statement .enable := EncodedSize.of_command rfl rfl
theorem EncodedSize.disable : EncodedSize.Statement .disable := EncodedSize.of_command rfl rfl
theorem EncodedSize.rVin (p : List Byte) : EncodedSize.Statement (.rVin p) :=
  EncodedSize.of_reply rfl rfl rfl of_decide_eq_true
theorem EncodedSize.rOut (p : List Byte) : EncodedSize.Statement (.rOut p) :=
  EncodedSize.of_reply rfl rfl rfl of_decide_eq_true
theorem EncodedSize.rTemp (p : List Byte) : EncodedSize.Statement (.rTemp p) :=
  EncodedSize.of_reply rfl rfl rfl of_decide_eq_true
theorem EncodedSize.rOutEn (p : List Byte) : EncodedSize.Statement (.rOutEn p) :=
  EncodedSize.of_reply rfl rfl rfl of_decide_eq_true
theorem EncodedSize.rModel (p : List Byte) : EncodedSize.Statement (.rModel p) :=
  EncodedSize.of_reply rfl rfl rfl of_decide_eq_true
theorem EncodedSize.rHwVer (p : List Byte) : EncodedSize.Statement (.rHwVer p) :=
  EncodedSize.of_reply rfl rfl rfl of_decide_eq_true
theorem EncodedSize.rFwVer (p : List Byte) : EncodedSize.Statement (.rFwVer p) :=
  EncodedSize.of_reply rfl rfl rfl of_decide_eq_true
theorem EncodedSize.rVMax (p : List Byte) : EncodedSize.Statement (.rVMax p) :=
  EncodedSize.of_reply rfl rfl rfl of_decide_eq_true
theorem EncodedSize.rIMax (p : List Byte) : EncodedSize.Statement (.rIMax p) :=
  EncodedSize.of_reply rfl rfl rfl of_decide_eq_true
theorem EncodedSize.rAll (p : List Byte) : EncodedSize.Statement (.rAll p) :=
  EncodedSize.of_reply rfl rfl rfl of_decide_eq_true
theorem EncodedSize.rOther (fid : Byte) (p : List Byte) : EncodedSize.Statement (.rOther fid p) :=
  EncodedSize.of_reply rfl rfl rfl fun h => of_decide_eq_true (Bool.and_eq_true_iff.mp h).2
theorem EncodedSize.feed (bytes : List Byte) : EncodedSize.Statement (.feed bytes) := EncodedSize.of_none rfl
theorem EncodedSize.snap : EncodedSize.Statement .snap := EncodedSize.of_none rfl
theorem EncodedSize.reset : EncodedSize.Statement .reset := EncodedSize.of_none rfl
theorem EncodedSize.initialise : EncodedSize.Statement .initialise := EncodedSize.of_none rfl
theorem EncodedSize.poll : EncodedSize.Statement .poll := EncodedSize.of_none rfl

end Sys2Proof.Laws
end

