-- ==== Sys2Proof/Tests/Slice0.lean ====
section
/-! SUPPORT. Tests. The expected results are those of the spec's test vectors (95_test_vectors: V-E, V-D, V-C, V-R) or
worked by hand from its encodings; then one witness for the hypotheses of each statement that has some. MAX_FEED is a
free value, so a pass over more than one byte is tested by `feedPass`, what FEED does within MAX_FEED. -/

namespace Sys2Proof.Tests

open Sys2Proof.Machine

/-- The reset machine with these bytes in the buffer. -/
def holding (buf : List Byte) : State := { State.reset with buf := buf }

/-- The reset machine after a pass over these bytes. -/
def fed (bytes : List Byte) : State := feedPass bytes State.reset

/-- The payload of V-D12. -/
def compositePayload : List Byte :=
  [0x00, 0x00, 0xA0, 0x41, 0x00, 0x00, 0xA0, 0x40, 0x00, 0x00, 0xC0, 0x3F, 0x00, 0x00, 0x98, 0x40]
    ++ [0x00, 0x00, 0x00, 0x3F, 0x00, 0x00, 0x18, 0x40, 0x00, 0x00, 0xC8, 0x41] ++ List.replicate 79 0x00
    ++ [0x01, 0x00, 0x00, 0x00, 0x00, 0x00, 0xF0, 0x41, 0x00, 0x00, 0xA0, 0x40]

/-- The frame of V-D1. -/
def frameD1 : List Byte := [0xF0, 0xA1, 0xC0, 0x04, 0x00, 0x00, 0x80, 0x3F, 0x83]

/-! ### Well-formedness -/

/-- A payload of that many zeros. -/
def zeros (n : Nat) : List Byte := List.replicate n 0x00

theorem payloadFits_zeros (n : Nat) : payloadFits (zeros n) = decide (n ≤ 255) := by
  rw [payloadFits, zeros, List.length_replicate]

theorem test_wellFormed_rejects_long_payloads :
    ¬ WellFormed (.rVin (zeros 256)) ∧ ¬ WellFormed (.rOut (zeros 256)) ∧ ¬ WellFormed (.rTemp (zeros 256)) ∧ ¬ WellFormed (.rOutEn (zeros 256)) ∧
    ¬ WellFormed (.rModel (zeros 256)) ∧ ¬ WellFormed (.rHwVer (zeros 256)) ∧ ¬ WellFormed (.rFwVer (zeros 256)) ∧ ¬ WellFormed (.rVMax (zeros 256)) ∧
    ¬ WellFormed (.rIMax (zeros 256)) ∧ ¬ WellFormed (.rAll (zeros 256)) ∧ ¬ WellFormed (.rOther 200 (zeros 256)) := by
  simp only [WellFormed, Instr.wellFormed, payloadFits_zeros]
  decide

theorem test_wellFormed_accepts_the_longest_payload : WellFormed (.rOther 1 (zeros 255)) := by
  simp only [WellFormed, Instr.wellFormed, payloadFits_zeros]
  decide

theorem test_wellFormed_rejects_other_with_a_rule :
    ∀ fid ∈ Config.recognised, ¬ WellFormed (.rOther fid []) := by decide

theorem test_wellFormed_rejects_overlong_feed :
    ¬ WellFormed (.feed (List.replicate (Config.maxFeed + 1) 0x00)) := by
  simp [WellFormed, Instr.wellFormed, Config.feedFits]

/-! ### Decoding: one word per constructor, from R80, R81 and V-E, V-D -/

theorem test_decode_enc :
    decodeOut6 [0xF0, 0xA1, 0xC0, 0x01, 0x04, 0xC5] = .ok (.enc 0xF0 0xA1 0xC0 0x04) ∧
    decodeTableWord 48 0xF0A1C00104C5 = some (.enc 0xF0 0xA1 0xC0 0x04) := by decide
theorem test_decode_get :
    decodeOut6 [0xF1, 0xA1, 0xDE, 0x01, 0x00, 0xDF] = .ok (.get 222) ∧
    decodeTableWord 48 0xF1A1DE0100DF = some (.get 222) := by decide
theorem test_decode_set :
    decodeOut6 [0xF1, 0xB1, 0xFE, 0x01, 0x01, 0x00] = .ok (.set 254 1) ∧
    decodeTableWord 48 0xF1B1FE010100 = some (.set 254 1) := by decide
theorem test_decode_initC0 :
    decodeOut6 [0xF1, 0xC0, 0x12, 0x01, 0x34, 0x47] = .ok (.initC0 0x12 0x34) ∧
    decodeTableWord 48 0xF1C012013447 = some (.initC0 0x12 0x34) := by decide
theorem test_decode_initC1 :
    decodeOut6 [0xF1, 0xC1, 0x00, 0x01, 0x01, 0x02] = .ok (.initC1 0 1) ∧
    decodeTableWord 48 0xF1C100010102 = some (.initC1 0 1) := by decide
theorem test_decode_requestAll :
    decodeOut6 [0xF1, 0xA1, 0xFF, 0x01, 0x00, 0x00] = .ok .requestAll ∧
    decodeTableWord 48 0xF1A1FF010000 = some .requestAll := by decide
theorem test_decode_enable :
    decodeOut6 [0xF1, 0xB1, 0xDB, 0x01, 0x01, 0xDD] = .ok .enable ∧
    decodeTableWord 48 0xF1B1DB0101DD = some .enable := by decide
theorem test_decode_disable :
    decodeOut6 [0xF1, 0xB1, 0xDB, 0x01, 0x00, 0xDC] = .ok .disable ∧
    decodeTableWord 48 0xF1B1DB0100DC = some .disable := by decide

theorem test_decode_rVin :
    decodeFrame frameD1 = .ok (.rVin [0x00, 0x00, 0x80, 0x3F]) ∧
    decodeTableWord 32 0xF0A1C004 = some (.rVin [0, 0, 0, 0]) := by decide
theorem test_decode_rOut :
    decodeFrame [0xF0, 0xA1, 0xC3, 0x08, 0x00, 0x00, 0xA0, 0x40, 0x00, 0x00, 0x00, 0x3F, 0xEA] =
      .ok (.rOut [0x00, 0x00, 0xA0, 0x40, 0x00, 0x00, 0x00, 0x3F]) := by decide
theorem test_decode_rTemp :
    decodeFrame [0xF0, 0xA1, 0xC4, 0x04, 0x00, 0x00, 0xC8, 0x41, 0xD1] = .ok (.rTemp [0x00, 0x00, 0xC8, 0x41]) := by decide
theorem test_decode_rOutEn : decodeFrame [0xF0, 0xA1, 0xDB, 0x01, 0x02, 0xDE] = .ok (.rOutEn [0x02]) := by decide
theorem test_decode_rModel :
    decodeFrame [0xF0, 0xA1, 0xDE, 0x03, 0x44, 0xFF, 0x80, 0xA4] = .ok (.rModel [0x44, 0xFF, 0x80]) := by decide
theorem test_decode_rHwVer :
    decodeFrame [0xF0, 0xA1, 0xDF, 0x04, 0x56, 0x31, 0x2E, 0x30, 0xC8] = .ok (.rHwVer [0x56, 0x31, 0x2E, 0x30]) := by decide
theorem test_decode_rFwVer :
    decodeFrame [0xF0, 0xA1, 0xE0, 0x04, 0x56, 0x31, 0x2E, 0x31, 0xCA] = .ok (.rFwVer [0x56, 0x31, 0x2E, 0x31]) := by decide
theorem test_decode_rVMax :
    decodeFrame [0xF0, 0xA1, 0xE2, 0x04, 0x00, 0x00, 0xF0, 0x41, 0x17] = .ok (.rVMax [0x00, 0x00, 0xF0, 0x41]) := by decide
theorem test_decode_rIMax :
    decodeFrame [0xF0, 0xA1, 0xE3, 0x04, 0x33, 0x33, 0xA3, 0x40, 0x30] = .ok (.rIMax [0x33, 0x33, 0xA3, 0x40]) := by decide
set_option maxRecDepth 4000 in
/-- V-D12's frame; its checksum byte is 0xC0. -/
theorem test_decode_rAll :
    decodeFrame (0xF0 :: 0xA1 :: 0xFF :: 0x77 :: (compositePayload ++ [0xC0])) = .ok (.rAll compositePayload) := rfl
theorem test_decode_rOther :
    decodeFrame [0xF0, 0xA1, 0xC1, 0x04, 0x00, 0x00, 0x40, 0x41, 0x46] = .ok (.rOther 193 [0x00, 0x00, 0x40, 0x41]) ∧
    decodeTableWord 32 0xF0A1C800 = some (.rOther 200 []) := by decide

/-- The operations that have no bit pattern (the opcode table): each stands for itself on its port. -/
theorem test_decode_ports :
    decodeOp (.feed [0x55]) = .feed [0x55] ∧ decodeOp .snap = .snap ∧ decodeOp .reset = .reset ∧
    decodeOp .initialise = .initialise ∧ decodeOp .poll = .poll := by decide

theorem test_decode_rejects_by_name :
    decodeOut6 [0xF1, 0xA1] = .error .notSixBytes ∧
    decodeOut6 [0xF1, 0xA1, 0xDE, 0x02, 0x00, 0xE0] = .error .lengthByte ∧
    decodeFrame [0xF0, 0xA1, 0x00, 0x00, 0x00] = .error .tooFew ∧
    decodeFrame [0xF0, 0xB1, 0xC0, 0x04, 0x00, 0x00] = .error .notStart ∧
    decodeFrame [0xF0, 0xA1, 0xC0, 0x04, 0x00, 0x00, 0x80, 0x3F] = .error .incomplete ∧
    decodeFrame [0xF0, 0xA1, 0xC0, 0x04, 0x00, 0x00, 0x80, 0x3F, 0x82] = .error .checksum := by decide

/-! ### Commands -/

/-- V-E1 to V-E20: the frames. -/
theorem test_encode_frames :
    encode (.get 255) = some [0xF1, 0xA1, 0xFF, 0x01, 0x00, 0x00] ∧
    encode (.set 255 255) = some [0xF1, 0xB1, 0xFF, 0x01, 0xFF, 0xFF] ∧
    encode (.set 0 0) = some [0xF1, 0xB1, 0x00, 0x01, 0x00, 0x01] ∧
    encode (.set 128 127) = some [0xF1, 0xB1, 0x80, 0x01, 0x7F, 0x00] ∧
    encode (.initC0 0 0) = some [0xF1, 0xC0, 0x00, 0x01, 0x00, 0x01] := by decide

/-- V-E20: a direction other than 0xF1 is emitted as given. -/
theorem test_enc_any_direction :
    exec (.enc 0xF0 0xA1 0xC0 0x04) State.reset =
      .next { State.reset with tx := [[0xF0, 0xA1, 0xC0, 0x01, 0x04, 0xC5]] } := rfl

/-- V-E22, V-C2: a command does not write DS. -/
theorem test_enable_leaves_ds :
    exec .enable State.reset = .next { State.reset with tx := [[0xF1, 0xB1, 0xDB, 0x01, 0x01, 0xDD]] } := rfl

/-- V-E21: the order on TX is the order of issue. -/
theorem test_tx_order :
    exec (.set 219 1) { State.reset with tx := [[0xF1, 0xA1, 0xFF, 0x01, 0x00, 0x00]] } =
      .next { State.reset with
        tx := [[0xF1, 0xA1, 0xFF, 0x01, 0x00, 0x00], [0xF1, 0xB1, 0xDB, 0x01, 0x01, 0xDD]] } := rfl

/-- V-C4: the decided tail of INIT_SEQ. -/
theorem test_initialise_tail :
    Config.initTail.map initFrame =
      [[0xF1, 0xA1, 0xDE, 0x01, 0x00, 0xDF], [0xF1, 0xA1, 0xDF, 0x01, 0x00, 0xE0],
       [0xF1, 0xA1, 0xE0, 0x01, 0x00, 0xE1], [0xF1, 0xA1, 0xFF, 0x01, 0x00, 0x00]] := by decide

/-! ### Passes -/

theorem test_D1_input_voltage :
    fed frameD1 = { State.reset with
      ds := { DeviceState.reset with inputVoltage := 0x3F800000 }, res := [⟨true, 1, []⟩] } := by decide

theorem test_D2_garbage_first : (fed (0xAA :: frameD1)).ds.inputVoltage = 0x3F800000 ∧ (fed (0xAA :: frameD1)).buf = [] := by
  decide

theorem test_D5_output :
    fed [0xF0, 0xA1, 0xC3, 0x0C, 0x00, 0x00, 0xA0, 0x40, 0x00, 0x00, 0x00, 0x3F, 0x00, 0x00, 0x20, 0x40, 0x4E] =
      { State.reset with
        ds := { DeviceState.reset with
          outputVoltage := 0x40A00000, outputCurrent := 0x3F000000, outputPower := 0x40200000 }
        res := [⟨true, 1, []⟩] } := by decide

theorem test_D6_temperature :
    (fed [0xF0, 0xA1, 0xC4, 0x04, 0x00, 0x00, 0xC8, 0x41, 0xD1]).ds =
      { DeviceState.reset with temperature := 0x41C80000 } := by decide

theorem test_D7_upperlimit_voltage :
    (fed [0xF0, 0xA1, 0xE2, 0x04, 0x00, 0x00, 0xF0, 0x41, 0x17]).ds =
      { DeviceState.reset with upperlimitVoltage := 0x41F00000 } := by decide

theorem test_D8_upperlimit_current :
    (fed [0xF0, 0xA1, 0xE3, 0x04, 0x33, 0x33, 0xA3, 0x40, 0x30]).ds =
      { DeviceState.reset with upperlimitCurrent := 0x40A33333 } := by decide

theorem test_D9_model :
    fed [0xF0, 0xA1, 0xDE, 0x07, 0x44, 0x50, 0x53, 0x2D, 0x31, 0x35, 0x30, 0x8F] =
      { State.reset with
        res := [⟨true, 1, [.textReport 0xDE [0x44, 0x50, 0x53, 0x2D, 0x31, 0x35, 0x30]]⟩] } := by decide

/-- V-D12: the composite, run as an instruction on a state whose `upperlimit_current` is 0x40A33333. -/
theorem test_D12_composite :
    exec (.rAll compositePayload)
        { State.reset with ds := { DeviceState.reset with upperlimitCurrent := 0x40A33333 } } =
      .next { State.reset with
        pass := ⟨124, 1, []⟩
        ds := ⟨0x40A00000, 0x3FC00000, 0x41A00000, 0x40980000, 0x3F000000, 0x40180000, true, 0x40A00000, 0x40A33333,
          0x41C80000⟩ } := by rfl

/-- V-D12b: 118 payload bytes are too short, and nothing is written. -/
theorem test_D12b_short_composite :
    exec (.rAll (compositePayload.take 118)) State.reset =
      .next { State.reset with pass := ⟨123, 1, [.shortPayload 0xFF 0x76]⟩ } := by rfl

theorem test_D13_text_error :
    (fed [0xF0, 0xA1, 0xDE, 0x03, 0x44, 0xFF, 0x80, 0xA4]).res = [⟨true, 1, [.textError 0xDE]⟩] := by decide

theorem test_D14_zero_length :
    (fed [0xF0, 0xA1, 0xDE, 0x00, 0xDE]).buf = [0xF0, 0xA1, 0xDE, 0x00, 0xDE] ∧
    (feedPass [0x00] (fed [0xF0, 0xA1, 0xDE, 0x00, 0xDE])).res = [⟨false, 0, []⟩, ⟨true, 1, [.textReport 0xDE []]⟩] ∧
    (feedPass [0x00] (fed [0xF0, 0xA1, 0xDE, 0x00, 0xDE])).buf = [0x00] := by decide

theorem test_D15_unrecognized :
    fed [0xF0, 0xA1, 0xC8, 0x03, 0x01, 0x02, 0x03, 0xD1] =
      { State.reset with res := [⟨true, 1, [.unrecognizedField 0xC8 3]⟩] } := by decide

theorem test_D17_short_payload :
    fed [0xF0, 0xA1, 0xC0, 0x02, 0x00, 0x00, 0xC2] =
      { State.reset with res := [⟨true, 1, [.shortPayload 0xC0 2]⟩] } := by decide

theorem test_D18_longer_payload :
    (fed [0xF0, 0xA1, 0xC0, 0x08, 0x00, 0x00, 0x40, 0x41, 0x00, 0x00, 0xC6, 0x42, 0x51]).ds =
      { DeviceState.reset with inputVoltage := 0x41400000 } := by decide

theorem test_D19_only_one_is_true :
    (exec (.rOutEn [0x02]) { State.reset with ds := { DeviceState.reset with outputClosed := true } }) =
      .next { State.reset with pass := ⟨6, 1, []⟩ } := rfl

theorem test_D20_outgoing_frame_is_garbage :
    fed [0xF1, 0xB1, 0xDB, 0x01, 0x01, 0xDD] =
      { State.reset with buf := [0xB1, 0xDB, 0x01, 0x01, 0xDD], res := [⟨false, 0, []⟩] } := by decide

theorem test_D22_fragments :
    (fed [0xF0]).buf = [0xF0] ∧
    feedPass [0xA1, 0xC0, 0x04, 0x00, 0x00, 0x80, 0x3F, 0x83] (fed [0xF0]) =
      { State.reset with
        ds := { DeviceState.reset with inputVoltage := 0x3F800000 }, res := [⟨false, 0, []⟩, ⟨true, 1, []⟩] } := by
  decide

theorem test_D24_corrupted_then_valid :
    fed [0xF0, 0xA1, 0xC0, 0x04, 0x00, 0x00, 0x80, 0x3F, 0x82, 0xF0, 0xA1, 0xC4, 0x04, 0x00, 0x00, 0xC8, 0x41, 0xD1] =
      { State.reset with
        ds := { DeviceState.reset with temperature := 0x41C80000 }
        res := [⟨true, 1, [.checksumError 0xC0 4 0x83 0x82]⟩] } := by decide

theorem test_D26_frame_inside_a_failed_candidate :
    fed [0xF0, 0xA1, 0xC8, 0x08, 0xF0, 0xA1, 0xDB, 0x01, 0x01, 0xDD, 0x11, 0x22, 0x4F] =
      { State.reset with
        ds := { DeviceState.reset with outputClosed := true }
        buf := [0x11, 0x22, 0x4F]
        res := [⟨true, 1, [.checksumError 0xC8 8 0x4E 0x4F]⟩] } := by decide

theorem test_D27_outer_frame_swallows :
    fed [0xF0, 0xA1, 0xC8, 0x06, 0xF0, 0xA1, 0xDB, 0x01, 0x01, 0xDD, 0x19] =
      { State.reset with res := [⟨true, 1, [.unrecognizedField 0xC8 6]⟩] } := by decide

/-- V-D28 (a). -/
theorem test_D28_false_candidate_holds :
    (fed ([0xF0, 0xA1, 0x00, 0xFF] ++ frameD1)).buf = [0xF0, 0xA1, 0x00, 0xFF] ++ frameD1 ∧
    (fed ([0xF0, 0xA1, 0x00, 0xFF] ++ frameD1)).res = [⟨false, 0, []⟩] := by decide

theorem test_D29_two_frames :
    (fed (frameD1 ++ [0xF0, 0xA1, 0xDB, 0x01, 0x01, 0xDD])).ds =
      { DeviceState.reset with inputVoltage := 0x3F800000, outputClosed := true } ∧
    (fed (frameD1 ++ [0xF0, 0xA1, 0xDB, 0x01, 0x01, 0xDD])).res = [⟨true, 2, []⟩] := by decide

theorem test_D40_repeated_header_byte : (fed (0xF0 :: frameD1)).ds.inputVoltage = 0x3F800000 := by decide

theorem test_D41_nan_pattern :
    (fed [0xF0, 0xA1, 0xC0, 0x04, 0x01, 0x00, 0xC0, 0x7F, 0x04]).ds.inputVoltage = 0x7FC00001 := by decide

/-! ### Ports and controller -/

/-- V-R1, V-R2: RESET zeroes DS and loses a half-received frame. -/
theorem test_R2_reset_drops_the_residual :
    exec .reset { (holding [0xF0, 0xA1, 0xC0, 0x04]) with ds := { DeviceState.reset with temperature := 7 } } =
      .next State.reset ∧
    (fed [0x00, 0x00, 0x80, 0x3F, 0x83]).buf = [0x00, 0x00, 0x80, 0x3F, 0x83] := by
  refine ⟨rfl, ?_⟩
  decide

theorem test_R4_snap : exec .snap State.reset = .next { State.reset with snap := [DeviceState.reset] } := rfl

/-- V-C5: a poll whose read completes V-D1's frame. -/
theorem test_C5_poll :
    (pollPass frameD1 State.reset).polled = [true] ∧ (pollPass frameD1 State.reset).ds.inputVoltage = 0x3F800000 := by
  decide

/-- V-C6: a poll whose read is empty or fails. -/
theorem test_C6_poll_without_bytes :
    exec .poll (State.powerUp [] [.bytes []]) = .next { State.reset with polled := [false] } ∧
    exec .poll (State.powerUp [] [.failed]) = .next { State.reset with polled := [false] } := ⟨rfl, rfl⟩

/-- Idle (R213). -/
theorem test_idle_step : step State.reset = .next State.reset := rfl

/-- A table word placed for the fetch is what the next step runs: an outgoing and an incoming one. -/
theorem test_step_runs_table_words :
    step (State.reset.withFetchWord 48 0xF1B1DB0101DD) =
      .next { State.reset with tx := [[0xF1, 0xB1, 0xDB, 0x01, 0x01, 0xDD]] } ∧
    step (State.reset.withFetchWord 32 0xF0A1C804) =
      .next { State.reset with res := [⟨true, 1, [.unrecognizedField 0xC8 4]⟩] } := ⟨rfl, rfl⟩

/-! ### Witnesses: the hypotheses of the statements can be met, at their boundaries -/

theorem one_le_maxFeed : 1 ≤ Config.maxFeed := Nat.le_add_left ..

theorem exec_feed_one (b : Byte) (s : State) : exec (.feed [b]) s = .next (feedPass [b] s) :=
  (execFeed_cases [b] s).elim (·.2) fun h => absurd one_le_maxFeed (Nat.not_le_of_lt h.1)

theorem witness_TxDependsOnTheInstructionAlone :
    (Instr.isCommand .enable = true ∨ Instr.enable = .initialise) ∧
    (Instr.isCommand .initialise = true ∨ Instr.initialise = .initialise) := by decide

theorem witness_CommandsAndFeedsCommute :
    (Instr.isCommand (.get 255) = true ∨ Instr.get 255 = .initialise) ∧ [(0x83 : Byte)].length ≤ Config.maxFeed :=
  ⟨.inl rfl, one_le_maxFeed⟩

theorem witness_InboundFramesRoundTrip :
    (Instr.rVin [1, 2, 3, 4]).isReply = true ∧ WellFormed (.rVin [1, 2, 3, 4]) ∧
    6 ≤ (invar 192 [1, 2, 3, 4] ++ []).length ∧
    (Instr.rOther 0 []).isReply = true ∧ WellFormed (.rOther 0 []) ∧ 6 ≤ (invar 0 [] ++ [0x55]).length := by decide

theorem witness_OutboundFramesRoundTrip :
    (Instr.enc 0xF1 0xA1 0x10 0x01).isCommand = true ∧
    (∀ dir cmd fid val, Instr.enc 0xF1 0xA1 0x10 0x01 = .enc dir cmd fid val →
      dir ≠ 0xF1 ∨ ¬ (cmd = 0xA1 ∧ val = 0 ∨ cmd = 0xB1 ∨ cmd = 0xC0 ∨ cmd = 0xC1)) ∧
    Instr.enc 0xF1 0xA1 0x10 0x01 ≠ .get 255 ∧ Instr.enc 0xF1 0xA1 0x10 0x01 ≠ .set 219 1 ∧
    Instr.enc 0xF1 0xA1 0x10 0x01 ≠ .set 219 0 := by
  refine ⟨rfl, ?_, by decide, by decide, by decide⟩
  intro dir cmd fid val h
  cases h
  exact .inr (by decide)

/-- The left side of the equivalence, and its right side with nothing after a frame. -/
theorem witness_FrameFoundIffValid :
    examine frameD1 = .frame 0xC0 [0x00, 0x00, 0x80, 0x3F] ∧ 6 ≤ frameD1.length ∧ frameD1 = frameD1 ++ [] ∧
    frameValid 0xF0 frameD1 = true ∧ frameD1[1]? = some 0xA1 ∧ frameD1[2]? = some 0xC0 ∧
    [0x00, 0x00, 0x80, 0x3F] = frameD1.extract 4 (frameD1.length - 1) := by decide

/-- The shortest and the longest frame. -/
theorem witness_FrameLengthFromItsLengthByte :
    (Instr.rOther 0 []).isReply = true ∧ WellFormed (.rOther 0 []) ∧
    encode (.rOther 0 []) = some [0xF0, 0xA1, 0x00, 0x00, 0x00] ∧
    (Instr.rOther 1 (zeros 255)).isReply = true ∧ WellFormed (.rOther 1 (zeros 255)) ∧
    encode (.rOther 1 (zeros 255)) = some (invar 1 (zeros 255)) :=
  ⟨rfl, rfl, rfl, rfl, test_wellFormed_accepts_the_longest_payload, rfl⟩

theorem witness_ReplyMapIsClosed :
    (193 : Byte) ≠ 192 ∧ (193 : Byte) ≠ 195 ∧ (193 : Byte) ≠ 196 ∧ (193 : Byte) ≠ 219 ∧ (193 : Byte) ≠ 222 ∧
    (193 : Byte) ≠ 223 ∧ (193 : Byte) ≠ 224 ∧ (193 : Byte) ≠ 226 ∧ (193 : Byte) ≠ 227 ∧ (193 : Byte) ≠ 255 := by decide

theorem witness_ChecksumIsTheSumModulo256 : ([2, 1] : List Byte).Perm [1, 2] := List.Perm.swap 1 2 []

theorem witness_SingleFloatReplies : ([] : List Byte).length < 4 ∧ ([1, 2, 3] : List Byte).length < 4 := by decide

theorem witness_OutputReply : ([] : List Byte).length < 12 ∧ (zeros 11).length < 12 := by decide

theorem witness_TextReplies :
    (∀ b ∈ ([] : List Byte), b.toNat ≤ 0x7F) ∧ (∀ b ∈ ([0x00, 0x7F] : List Byte), b.toNat ≤ 0x7F) ∧
    ∃ b ∈ ([0x44, 0x80] : List Byte), 0x7F < b.toNat := by decide

theorem witness_CompositeReply : 119 ≤ compositePayload.length ∧ (compositePayload.take 118).length < 119 := by decide

theorem witness_OtherReply : WellFormed (.rOther 200 []) ∧ WellFormed (.rOther 193 [1, 2]) := by decide

theorem witness_ShortPayloadWritesNothing :
    0 < (Instr.rOut (zeros 11)).need ∧ (Instr.rOut (zeros 11)).reply = some (195, zeros 11) ∧
    (zeros 11).length < (Instr.rOut (zeros 11)).need ∧
    0 < (Instr.rOut (zeros 12)).need ∧ (Instr.rOut (zeros 12)).reply = some (195, zeros 12) ∧
    (Instr.rOut (zeros 12)).need ≤ (zeros 12).length := by decide

theorem witness_RepliesChangeOnlyDsAndThePass :
    (Instr.rVin [1, 2, 3, 4]).reply = some (192, [1, 2, 3, 4]) ∧ (Instr.rOther 200 []).reply = some (200, []) := by decide

set_option maxRecDepth 4000 in
/-- One instruction changes nine fields, another the tenth. -/
theorem witness_FieldsAreWrittenByTheirReplies :
    (∃ t : State, (Instr.rAll compositePayload).isReply = true ∧ exec (.rAll compositePayload) State.reset = .next t ∧
      t.ds.setVoltage ≠ 0 ∧ t.ds.setCurrent ≠ 0 ∧ t.ds.inputVoltage ≠ 0 ∧ t.ds.outputVoltage ≠ 0 ∧
      t.ds.outputCurrent ≠ 0 ∧ t.ds.outputPower ≠ 0 ∧ t.ds.outputClosed ≠ false ∧ t.ds.upperlimitVoltage ≠ 0 ∧
      t.ds.temperature ≠ 0) ∧
    ∃ t : State, (Instr.rIMax [0x33, 0x33, 0xA3, 0x40]).isReply = true ∧
      exec (.rIMax [0x33, 0x33, 0xA3, 0x40]) State.reset = .next t ∧ t.ds.upperlimitCurrent ≠ 0 :=
  ⟨⟨_, rfl, rfl, by decide⟩, _, rfl, rfl, by decide⟩

/-- A frame completed by one fed byte changes DS and BUF. -/
theorem witness_OnlyTheDecoderAndResetWriteDsAndBuf :
    ∃ s t : State, exec (.feed [0x83]) s = .next t ∧ t.ds ≠ s.ds ∧ t.buf ≠ s.buf :=
  ⟨holding (frameD1.take 8), feedPass [0x83] (holding (frameD1.take 8)), exec_feed_one .., by decide, by decide⟩

/-- A buffer of five bytes; one whose first byte is no header, one with the header but another command code; one whose
frame lacks its last byte. -/
theorem witness_ScanStopsAndSkips :
    (holding [0xF0, 0xA1, 0, 0, 0]).buf.length - 0 < 6 ∧
    (¬ (holding [0xAA, 0xA1, 0, 0, 0, 0]).buf.length - 0 < 6 ∧ (holding [0xAA, 0xA1, 0, 0, 0, 0]).buf[0]? ≠ some 0xF0) ∧
    (¬ (holding [0xF0, 0xB1, 0, 0, 0, 0]).buf.length - 0 < 6 ∧ (holding [0xF0, 0xB1, 0, 0, 0, 0]).buf[0 + 1]? ≠ some 0xA1) ∧
    ¬ (holding (frameD1.take 8)).buf.length - 0 < 6 ∧ (holding (frameD1.take 8)).buf[0]? = some 0xF0 ∧
    (holding (frameD1.take 8)).buf[0 + 1]? = some 0xA1 ∧ (holding (frameD1.take 8)).buf[0 + 3]? = some (4 : Byte) ∧
    (holding (frameD1.take 8)).buf.length - 0 < (4 : Byte).toNat + 5 := by decide

/-- A frame that matches, and the same bytes with their checksum byte altered. -/
theorem witness_ScanValidatesTheChecksum :
    ∀ buf ∈ [frameD1, frameD1.take 8 ++ [0x82]],
      ¬ (holding buf).buf.length - 0 < 6 ∧ (holding buf).buf[0]? = some 0xF0 ∧ (holding buf).buf[0 + 1]? = some 0xA1 ∧
      (holding buf).buf[0 + 2]? = some (0xC0 : Byte) ∧ (holding buf).buf[0 + 3]? = some (4 : Byte) ∧
      ¬ (holding buf).buf.length - 0 < (4 : Byte).toNat + 5 ∧
      sum8 ((holding buf).buf.extract (0 + 2) (0 + 4 + (4 : Byte).toNat)) = 0x83 := by decide

theorem witness_PassRunsTheInstructionAtPos :
    decodeFrame (rest (holding frameD1)) = .ok (.rVin [0x00, 0x00, 0x80, 0x3F]) ∧
    (Instr.rVin [0x00, 0x00, 0x80, 0x3F]).reply = some (192, [0x00, 0x00, 0x80, 0x3F]) := by decide

theorem witness_FeedIsTheReferenceScan : ([] : List Byte).length ≤ Config.maxFeed ∧ [(0x83 : Byte)].length ≤ Config.maxFeed :=
  ⟨Nat.zero_le _, one_le_maxFeed⟩

/-- On a residual of two bytes the reference function gives the same two bytes. -/
theorem witness_ReferenceScanIsAFunction : Scans [1, 2] 0 DeviceState.reset 0 [] [1, 2] DeviceState.reset 0 [] :=
  Scans.stop (by decide)

theorem witness_OverlongFeedIsRefused :
    ∃ (bytes : List Byte) (s : State), Config.maxFeed < bytes.length ∧ s.transport = .bytes bytes :: [] :=
  ⟨zeros (Config.maxFeed + 1), State.powerUp [] [.bytes (zeros (Config.maxFeed + 1))],
    by rw [zeros, List.length_replicate]; omega, rfl⟩

theorem witness_ResidualIsBounded : ∃ t : State, exec (.feed [0x83]) State.reset = .next t := ⟨_, exec_feed_one ..⟩

/-- The reset state, and one with half a frame in its buffer. -/
theorem witness_BufferNeverOverflows :
    State.reset.Inv ∧ (holding (frameD1.take 8)).Inv ∧ [(0x83 : Byte)].length ≤ Config.maxFeed :=
  ⟨⟨.inl rfl, rfl, by simp [State.reset], by simp [State.reset]⟩,
    ⟨.inr rfl, rfl, by simp [holding, State.reset], by simp [holding, State.reset]⟩, one_le_maxFeed⟩

theorem witness_EmptyFeedChangesNothing : (holding (frameD1.take 8)).Inv := witness_BufferNeverOverflows.2.1

theorem witness_FragmentationDoesNotMatter :
    ([0x83] ++ ([] : List Byte)).length ≤ Config.maxFeed ∧ (([] : List Byte) ++ [0x83]).length ≤ Config.maxFeed :=
  ⟨one_le_maxFeed, one_le_maxFeed⟩

/-- V-D1's frame one byte a feed, as V-D23 has it, and with an empty feed between. -/
theorem witness_AnySplitOfAStreamIsTheSame :
    (frameD1.map fun b => [b]).flatten = ([] :: frameD1.map fun b => [b]).flatten ∧
    (frameD1.map fun b => [b]) ≠ [] ∧ ([] :: frameD1.map fun b => [b]) ≠ [] ∧
    ∀ b ∈ (frameD1.map fun b => [b]) ++ ([] :: frameD1.map fun b => [b]), b.length ≤ Config.maxFeed := by
  refine ⟨by decide, by decide, by decide, fun b hb => Nat.le_trans ?_ one_le_maxFeed⟩
  revert b
  decide

/-- V-D32's bytes, all but the last in the buffer: the garbage ends with a header byte. -/
theorem witness_GarbageThenOneFrame :
    (holding ([0x01, 0x02, 0xF0] ++ frameD1.take 8)).buf ++ [0x83] =
      [0x01, 0x02, 0xF0] ++ invar 0xC0 [0x00, 0x00, 0x80, 0x3F] ∧
    noCandidate 3 ([0x01, 0x02, 0xF0] ++ invar 0xC0 [0x00, 0x00, 0x80, 0x3F]) ∧ [(0x83 : Byte)].length ≤ Config.maxFeed :=
  ⟨by decide, by decide, one_le_maxFeed⟩

/-- V-D24's bytes, all but the last in the buffer. -/
theorem witness_CorruptedFrameWritesNothing :
    (holding (frameD1.take 8 ++ [0x82, 0xF0, 0xA1, 0xC4, 0x04, 0x00, 0x00, 0xC8, 0x41])).buf ++ [0xD1] =
      (0xF0 :: 0xA1 :: 0xC0 :: 0x04 :: ([0x00, 0x00, 0x80, 0x3F] ++ [0x82])) ++ invar 0xC4 [0x00, 0x00, 0xC8, 0x41] ∧
    0x82 ≠ cksum 0xC0 0x04 [0x00, 0x00, 0x80, 0x3F] ∧
    noCandidate 8 (((0xF0 :: 0xA1 :: 0xC0 :: 0x04 :: ([0x00, 0x00, 0x80, 0x3F] ++ [0x82])) ++
      invar 0xC4 [0x00, 0x00, 0xC8, 0x41]).drop 1) ∧ [(0xD1 : Byte)].length ≤ Config.maxFeed :=
  ⟨by decide, by decide, by decide, one_le_maxFeed⟩

/-- V-D36's six bytes, the last of them fed; and bytes that end with the header byte. -/
theorem witness_GarbageRaisesNoEvent :
    (holding [0x01, 0x02, 0x03, 0x04, 0x05]).buf ++ [0x06] = [0x01, 0x02, 0x03, 0x04, 0x05, 0x06] ∧
    noCandidate 6 [0x01, 0x02, 0x03, 0x04, 0x05, 0x06] ∧ noCandidate 1 [0xF0] ∧ [(0x06 : Byte)].length ≤ Config.maxFeed :=
  ⟨by decide, by decide, by decide, one_le_maxFeed⟩

/-- V-D28 (a), all but the last byte in the buffer; and the shortest: six bytes of a frame of one payload byte more. -/
theorem witness_FalseCandidateHoldsTheScan :
    (holding ([0xF0, 0xA1, 0x00, 0xFF] ++ frameD1.take 8)).buf ++ [0x83] =
      0xF0 :: 0xA1 :: 0x00 :: 0xFF :: frameD1 ∧
    2 ≤ frameD1.length ∧ frameD1.length < (0xFF : Byte).toNat + 1 ∧
    2 ≤ ([0x01, 0x02] : List Byte).length ∧ ([0x01, 0x02] : List Byte).length < (0x02 : Byte).toNat + 1 ∧
    [(0x83 : Byte)].length ≤ Config.maxFeed :=
  ⟨by decide, by decide, by decide, by decide, by decide, one_le_maxFeed⟩

theorem witness_ZeroLengthFrameWaitsForAByte :
    (holding [0xF0, 0xA1, 0xDE, 0x00]).buf ++ [0xDE] = [0xF0, 0xA1, 0xDE, 0x00, 0xDE] ∧
    [(0xDE : Byte)].length ≤ Config.maxFeed := ⟨rfl, one_le_maxFeed⟩

theorem witness_PassAppliesExactlyTheValidFrames : [(0x83 : Byte)].length ≤ Config.maxFeed := one_le_maxFeed

theorem witness_OutgoingFrameIsNotDecoded :
    (holding [0xF1, 0xB1, 0xDB, 0x01, 0x01]).buf ++ [0xDD] = out6 0xF1 0xB1 0xDB 0x01 ∧
    [(0xDD : Byte)].length ≤ Config.maxFeed := ⟨by decide, one_le_maxFeed⟩

theorem witness_PollReadsOnceAndFeeds :
    State.reset.transport = [] ∧ (State.powerUp [] [.failed]).transport = .failed :: [] ∧
    (State.powerUp [] [.bytes []]).transport = .bytes [] :: [] ∧
    (State.powerUp [] [.bytes [0x83]]).transport = .bytes [0x83] :: [] ∧ [(0x83 : Byte)] ≠ [] ∧
    [(0x83 : Byte)].length ≤ Config.maxFeed := ⟨rfl, rfl, rfl, rfl, by decide, one_le_maxFeed⟩

theorem witness_EveryStepKeepsTheInvariant :
    ∃ t : State, (State.powerUp [.snap] []).Inv ∧ step (State.powerUp [.snap] []) = .next t :=
  ⟨_, ⟨.inl rfl, rfl, by simp [State.powerUp, State.reset], by simp [State.powerUp, State.reset]⟩, rfl⟩

theorem witness_EveryRunKeepsTheInvariant : ∃ t : State, core.run 2 (State.powerUp [.snap, .poll] [.failed]) = .next t :=
  ⟨_, rfl⟩

theorem witness_StepRunsTheNextOperation :
    (State.powerUp [.snap] []).host = .snap :: [] ∧ State.reset.host = [] := ⟨rfl, rfl⟩

/-- A command on a machine that has presented something before, and a refusal. -/
theorem witness_OutputsAreNotRead :
    (∃ t, exec .enable { State.reset with tx := [out6 0xF1 0xA1 0xFF 0x00], polled := [false] } = .next t) ∧
    ∃ bytes r, exec (.feed bytes) State.reset = .refused r := by
  refine ⟨⟨_, rfl⟩, zeros (Config.maxFeed + 1), .feedTooLong (zeros (Config.maxFeed + 1)).length, ?_⟩
  rcases execFeed_cases (zeros (Config.maxFeed + 1)) State.reset with ⟨h, -⟩ | ⟨-, h⟩
  · rw [zeros, List.length_replicate] at h; omega
  · exact h

theorem witness_OutputsOnlyGrow : ∃ t, exec .snap State.reset = .next t := ⟨_, rfl⟩

end Sys2Proof.Tests
end

section
/-! The agents of the block (R15): an outbound operation acts on TX alone, a feed never reads TX, so the two commute;
and a step is the host's next operation. -/

namespace Sys2Proof

/-- The commands are the instructions with the operands of an `OUT6` frame (R86, R92). -/
theorem Instr.exists_operands_of_isCommand {i : Instr} (h : i.isCommand = true) :
    ∃ dir cmd fid val, i.operands = some (dir, cmd, fid, val) := by
  cases i
  case enc | get | set | initC0 | initC1 | requestAll | enable | disable => exact ⟨_, _, _, _, rfl⟩
  all_goals cases h

/-- Any operand bytes make a well-formed command (R14). -/
theorem wellFormed_of_isCommand {i : Instr} (h : i.isCommand = true) : WellFormed i := by
  cases i
  case enc | get | set | initC0 | initC1 | requestAll | enable | disable => rfl
  all_goals cases h

end Sys2Proof

namespace Sys2Proof.Machine

/-! ### Outbound operations -/

/-- Several frames on TX, in order (R116). -/
def transmitAll (frames : List (List Byte)) (s : State) : State := { s with tx := s.tx ++ frames }

/-- Transmitting frame after frame presents them all. -/
theorem foldl_transmit {α : Type} (frame : α → List Byte) (l : List α) (s : State) :
    l.foldl (fun t a => transmit (frame a) t) s = transmitAll (l.map frame) s := by
  induction l generalizing s with
  | nil => simp [transmitAll]
  | cons a l ih =>
    rw [List.foldl_cons, ih]
    simp [transmitAll, transmit]

/-- `INITIALIZE` presents the frames of `INIT_SEQ` (R190). -/
theorem exec_initialise (s : State) :
    exec .initialise s = .next (transmitAll (Config.initSeq.map initFrame) s) :=
  congrArg Host.Outcome.next (foldl_transmit initFrame Config.initSeq s)

/-- Everything an outbound operation does, in every state: it presents frames of its own (R116). -/
theorem exec_outbound {i : Instr} (h : i.isCommand = true ∨ i = .initialise) :
    ∃ frames, ∀ s, exec i s = .next (transmitAll frames s) := by
  rcases h with hcmd | rfl
  · obtain ⟨dir, cmd, fid, val, hops⟩ := Instr.exists_operands_of_isCommand hcmd
    exact ⟨[out6 dir cmd fid val], exec_of_operands hops⟩
  · exact ⟨_, exec_initialise⟩

/-! ### Feeds -/

/-- A feed within MAX_FEED completes with its pass (R14, R130). -/
theorem exec_feed_of_le {bytes : List Byte} (h : bytes.length ≤ Config.maxFeed) (s : State) :
    exec (.feed bytes) s = .next (feedPass bytes s) := by
  rcases execFeed_cases bytes s with ⟨-, hpass⟩ | ⟨hlong, -⟩
  · exact hpass
  · exact absurd h (Nat.not_le_of_lt hlong)

/-- A pass neither reads nor writes TX. -/
theorem feedPass_transmitAll (bytes : List Byte) (frames : List (List Byte)) (s : State) :
    feedPass bytes (transmitAll frames s) = transmitAll frames (feedPass bytes s) := by
  rw [feedPass_eq, feedPass_eq]
  rfl

/-- Settles O9: the operation adds its frames to TX, and a pass commutes with that. -/
theorem commandsAndFeedsCommute : Obligations.CommandsAndFeedsCommute := by
  intro i bytes s hi hlen
  obtain ⟨frames, hexec⟩ := exec_outbound hi
  refine ⟨_, _, _, hexec s, exec_feed_of_le hlen _, exec_feed_of_le hlen s, ?_⟩
  rw [hexec, feedPass_transmitAll]

/-! ### Steps -/

/-- A step with an operation waiting performs it (R243, R56). -/
theorem step_of_host_cons {op : HostOp} {ops : List HostOp} {s : State} (h : s.host = op :: ops) :
    step s = exec (decodeOp op) { s with host := ops } := by
  rcases step_cases s with ⟨hnone, -⟩ | ⟨op', ops', hsome, hstep⟩
  · simp [h] at hnone
  · obtain ⟨rfl, rfl⟩ := List.cons.inj (h.symm.trans hsome)
    exact hstep

/-- A step of the idle block changes nothing (R213). -/
theorem step_of_host_nil {s : State} (h : s.host = []) : step s = .next s := by
  rcases step_cases s with ⟨-, hstep⟩ | ⟨op, ops, hsome, -⟩
  · exact hstep
  · simp [h] at hsome

/-- Settles O56, from what a step does with and without an operation and what the CMD port's operands decode to. -/
theorem stepRunsTheNextOperation : Obligations.StepRunsTheNextOperation := by
  refine ⟨fun _ _ _ => step_of_host_cons, fun dir cmd fid val => ?_, fun _ => rfl, rfl, rfl, rfl, rfl,
    fun _ => step_of_host_nil⟩
  have hcmd := decodeCommand_isCommand dir cmd fid val
  exact ⟨wellFormed_of_isCommand hcmd, hcmd, decodeCommand_operands dir cmd fid val⟩

end Sys2Proof.Machine
end

section
/-! What each instruction may change: the outbound operations TX alone, an inbound instruction its own fields of DS
(R21), the decoder and RESET DS and BUF (R24); and no instruction reads what has crossed the output ports (R33). -/

namespace Sys2Proof

/-- The inbound instructions are those with an identifier and a payload (R87). -/
theorem Instr.exists_reply_of_isReply {i : Instr} (h : i.isReply = true) :
    ∃ fid payload, i.reply = some (fid, payload) := by
  cases i
  case rVin | rOut | rTemp | rOutEn | rModel | rHwVer | rFwVer | rVMax | rIMax | rAll | rOther => exact ⟨_, _, rfl⟩
  all_goals cases h

/-- An inbound instruction is what its identifier decodes to, but for an `R.OTHER` of any identifier. -/
theorem Instr.eq_decodeReply_or_rOther {i : Instr} {fid : Byte} {payload : List Byte}
    (h : i.reply = some (fid, payload)) : i = decodeReply fid payload ∨ i = .rOther fid payload := by
  cases i
  case rOther => cases h; exact .inr rfl
  case rVin | rOut | rTemp | rOutEn | rModel | rHwVer | rFwVer | rVMax | rIMax | rAll => cases h; exact .inl rfl
  all_goals cases h

/-- Every instruction is outbound, inbound, or an operation of RX, SNAP, RESET or the transport. -/
theorem Instr.kind_cases (i : Instr) :
    (i.isCommand = true ∨ i = .initialise) ∨ i.isReply = true ∨ (∃ bytes, i = .feed bytes) ∨ i = .snap ∨
      i = .reset ∨ i = .poll := by
  cases i <;> simp [Instr.isCommand, Instr.isReply]

end Sys2Proof

namespace Sys2Proof.Machine

/-! ### Outbound operations -/

/-- The frame of four operands is one that TX may carry (R80, R83). -/
theorem txFrame_out6 (dir cmd fid val : Byte) : txFrame (out6 dir cmd fid val) :=
  ⟨out6_length .., dir, frameValid_out6 ..⟩

/-- Settles O8: a command presents the frame of its operands, `INITIALIZE` those of `INIT_SEQ`. -/
theorem txDependsOnTheInstructionAlone : Obligations.TxDependsOnTheInstructionAlone := by
  rintro i (hcmd | rfl)
  · obtain ⟨dir, cmd, fid, val, hops⟩ := Instr.exists_operands_of_isCommand hcmd
    refine ⟨[out6 dir cmd fid val], fun f hf => ?_, fun _ => rfl, exec_of_operands hops⟩
    rw [List.mem_singleton.mp hf]
    exact txFrame_out6 ..
  · refine ⟨Config.initSeq.map initFrame, fun f hf => ?_, fun h => absurd h Bool.false_ne_true, exec_initialise⟩
    obtain ⟨e, -, rfl⟩ := List.mem_map.mp hf
    exact txFrame_out6 ..

/-! ### Inbound instructions -/

/-- A valid frame's instruction does what `Dispatch` says of its identifier and consumes the frame (R135, R160). -/
theorem exec_decodeReply_eq_afterFrame (fid : Byte) (payload : List Byte) (s : State) :
    exec (decodeReply fid payload) s =
      .next (s.afterFrame (dispatchEffect s.ds fid payload).1 payload.length (dispatchEffect s.ds fid payload).2) := by
  rw [exec_decodeReply, dispatch_eq]
  rfl

/-- Everything an inbound instruction does, in every state: it consumes its frame, and what it leaves in DS and the
events it raises depend on DS alone. -/
theorem exec_inbound {i : Instr} (h : i.isReply = true) :
    ∃ (length : Nat) (effect : DeviceState → DeviceState × List Event),
      ∀ s, exec i s = .next (s.afterFrame (effect s.ds).1 length (effect s.ds).2) := by
  obtain ⟨fid, payload, hreply⟩ := Instr.exists_reply_of_isReply h
  rcases Instr.eq_decodeReply_or_rOther hreply with rfl | rfl
  · exact ⟨_, fun d => dispatchEffect d fid payload, exec_decodeReply_eq_afterFrame fid payload⟩
  · exact ⟨_, fun d => (d, [.unrecognizedField fid payload.length]),
      fun s => congrArg Host.Outcome.next (consumeFrame_raise ..)⟩

/-! ### The fields each dispatch rule may write (R21, R175) -/

theorem replyVin_ds (payload : List Byte) (s : State) :
    (replyVin payload s).ds = s.ds ∨ ∃ v, (replyVin payload s).ds = { s.ds with inputVoltage := v } := by
  unfold replyVin
  split
  · exact .inr ⟨_, rfl⟩
  · exact .inl rfl

theorem replyOut_ds (payload : List Byte) (s : State) :
    (replyOut payload s).ds = s.ds ∨ ∃ v c p, (replyOut payload s).ds =
      { s.ds with outputVoltage := v, outputCurrent := c, outputPower := p } := by
  unfold replyOut
  split
  · exact .inr ⟨_, _, _, rfl⟩
  · exact .inl rfl

theorem replyTemp_ds (payload : List Byte) (s : State) :
    (replyTemp payload s).ds = s.ds ∨ ∃ v, (replyTemp payload s).ds = { s.ds with temperature := v } := by
  unfold replyTemp
  split
  · exact .inr ⟨_, rfl⟩
  · exact .inl rfl

theorem replyOutEn_ds (payload : List Byte) (s : State) :
    (replyOutEn payload s).ds = s.ds ∨ ∃ b, (replyOutEn payload s).ds = { s.ds with outputClosed := b } := by
  unfold replyOutEn
  split
  · exact .inr ⟨_, rfl⟩
  · exact .inl rfl

theorem replyVMax_ds (payload : List Byte) (s : State) :
    (replyVMax payload s).ds = s.ds ∨ ∃ v, (replyVMax payload s).ds = { s.ds with upperlimitVoltage := v } := by
  unfold replyVMax
  split
  · exact .inr ⟨_, rfl⟩
  · exact .inl rfl

theorem replyIMax_ds (payload : List Byte) (s : State) :
    (replyIMax payload s).ds = s.ds ∨ ∃ v, (replyIMax payload s).ds = { s.ds with upperlimitCurrent := v } := by
  unfold replyIMax
  split
  · exact .inr ⟨_, rfl⟩
  · exact .inl rfl

theorem replyAll_upperlimitCurrent (payload : List Byte) (s : State) :
    (replyAll payload s).ds.upperlimitCurrent = s.ds.upperlimitCurrent := by
  unfold replyAll
  split <;> rfl

@[simp] theorem textField_ds (fid : Byte) (payload : List Byte) (s : State) :
    (textField fid payload s).ds = s.ds := by
  unfold textField
  split <;> rfl

/-- Settles O27: the rule of each inbound instruction leaves DS as it is but for its own fields, `R.ALL` all but
`upperlimit_current`. -/
theorem fieldsAreWrittenByTheirReplies : Obligations.FieldsAreWrittenByTheirReplies := by
  intro i s t hi hexec
  cases i
  case rVin p => cases hexec; rcases replyVin_ds p s with h | ⟨v, h⟩ <;> simp [h]
  case rOut p => cases hexec; rcases replyOut_ds p s with h | ⟨v, c, w, h⟩ <;> simp [h]
  case rTemp p => cases hexec; rcases replyTemp_ds p s with h | ⟨v, h⟩ <;> simp [h]
  case rOutEn p => cases hexec; rcases replyOutEn_ds p s with h | ⟨b, h⟩ <;> simp [h]
  case rVMax p => cases hexec; rcases replyVMax_ds p s with h | ⟨v, h⟩ <;> simp [h]
  case rIMax p => cases hexec; rcases replyIMax_ds p s with h | ⟨v, h⟩ <;> simp [h]
  case rAll p => cases hexec; simp [replyAll_upperlimitCurrent]
  case rModel p => cases hexec; simp [replyModel]
  case rHwVer p => cases hexec; simp [replyHwVer]
  case rFwVer p => cases hexec; simp [replyFwVer]
  case rOther fid p => cases hexec; simp [replyOther]
  all_goals cases hi

/-- The four bytes of a pattern, the least significant first, read back as the pattern (R22, R52). -/
theorem f32LE_extractLsb' (w : Pattern) :
    f32LE (w.extractLsb' 0 8) (w.extractLsb' 8 8) (w.extractLsb' 16 8) (w.extractLsb' 24 8) = w := by
  apply BitVec.eq_of_toNat_eq
  have hw := w.isLt
  rw [f32LE_toNat]
  simp only [BitVec.extractLsb'_toNat, Nat.shiftRight_eq_div_pow]
  omega

/-- `R.VIN` of four bytes stores their float (R162). -/
theorem exec_rVin_four_bytes (b0 b1 b2 b3 : Byte) (s : State) :
    exec (.rVin [b0, b1, b2, b3]) s =
      .next (s.afterFrame { s.ds with inputVoltage := f32LE b0 b1 b2 b3 } 4 []) :=
  congrArg Host.Outcome.next (consumeFrame_writeDs ..)

/-- Settles O28: `R.VIN` stores the float of its four bytes, which is the pattern they were taken from. -/
theorem everyPatternIsStoredBitForBit : Obligations.EveryPatternIsStoredBitForBit := by
  intro w s
  rw [exec_rVin_four_bytes, f32LE_extractLsb']

/-! ### Who writes DS and BUF -/

/-- Settles O29: the outbound operations and `SNAP` leave both, an inbound instruction leaves BUF. -/
theorem onlyTheDecoderAndResetWriteDsAndBuf : Obligations.OnlyTheDecoderAndResetWriteDsAndBuf := by
  intro i s t hexec
  rcases Instr.kind_cases i with hout | hin | ⟨bytes, rfl⟩ | rfl | rfl | rfl
  · obtain ⟨frames, hframes⟩ := exec_outbound hout
    cases (hframes s).symm.trans hexec
    exact ⟨fun h => absurd rfl h, fun h => absurd rfl h⟩
  · obtain ⟨length, effect, heffect⟩ := exec_inbound hin
    cases (heffect s).symm.trans hexec
    exact ⟨fun _ => .inl hin, fun h => absurd rfl h⟩
  · exact ⟨fun _ => .inr (.inl ⟨_, rfl⟩), fun _ => .inl ⟨_, rfl⟩⟩
  · cases hexec
    exact ⟨fun h => absurd rfl h, fun h => absurd rfl h⟩
  · exact ⟨fun _ => .inr (.inr (.inr rfl)), fun _ => .inr (.inr rfl)⟩
  · exact ⟨fun _ => .inr (.inr (.inl rfl)), fun _ => .inr (.inl rfl)⟩

/-! ### The output ports -/

/-- The state with what crossed the output ports of `before` put in front of what crossed its own. -/
def State.afterOutputsOf (s before : State) : State :=
  { s with
    tx := before.tx ++ s.tx
    res := before.res ++ s.res
    snap := before.snap ++ s.snap
    polled := before.polled ++ s.polled }

@[simp] theorem afterOutputsOf_ds (s before : State) : (s.afterOutputsOf before).ds = s.ds := rfl

@[simp] theorem afterOutputsOf_buf (s before : State) : (s.afterOutputsOf before).buf = s.buf := rfl

@[simp] theorem afterOutputsOf_transport (s before : State) : (s.afterOutputsOf before).transport = s.transport := rfl

/-- A state is the one without its outputs, after those outputs. -/
theorem withoutOutputs_afterOutputsOf (s : State) : s.withoutOutputs.afterOutputsOf s = s := by
  simp [State.afterOutputsOf, State.withoutOutputs]

/-- A change of the next state, where there is one. -/
def mapNext (f : State → State) : Host.Outcome State Fault Refusal → Host.Outcome State Fault Refusal
  | .next s => .next (f s)
  | .fault r => .fault r
  | .refused r => .refused r

theorem transmitAll_afterOutputsOf (frames : List (List Byte)) (s before : State) :
    transmitAll frames (s.afterOutputsOf before) = (transmitAll frames s).afterOutputsOf before := by
  simp [transmitAll, State.afterOutputsOf]

theorem presentSnap_afterOutputsOf (s before : State) :
    presentSnap (s.afterOutputsOf before) = (presentSnap s).afterOutputsOf before := by
  simp [presentSnap, State.afterOutputsOf]

theorem returnPoll_afterOutputsOf (b : Bool) (s before : State) :
    returnPoll b (s.afterOutputsOf before) = (returnPoll b s).afterOutputsOf before := by
  simp [returnPoll, State.afterOutputsOf]

theorem feedPass_afterOutputsOf (bytes : List Byte) (s before : State) :
    feedPass bytes (s.afterOutputsOf before) = (feedPass bytes s).afterOutputsOf before := by
  rw [feedPass_eq, feedPass_eq]
  simp only [State.afterOutputsOf, List.append_assoc]
  rfl

theorem pollPass_afterOutputsOf (bytes : List Byte) (s before : State) :
    pollPass bytes (s.afterOutputsOf before) = (pollPass bytes s).afterOutputsOf before := by
  rw [pollPass_eq, pollPass_eq, feedPass_afterOutputsOf, returnPoll_afterOutputsOf, afterOutputsOf_ds,
    afterOutputsOf_buf]

theorem execFeed_afterOutputsOf (bytes : List Byte) (s before : State) :
    execFeed bytes (s.afterOutputsOf before) = mapNext (·.afterOutputsOf before) (execFeed bytes s) := by
  unfold execFeed
  split
  · rw [feedPass_afterOutputsOf]; rfl
  · rfl

/-- `POLL` chooses by the transport and MAX_FEED alone, and each of its branches adds to the lists. -/
theorem execPoll_afterOutputsOf (s before : State) :
    execPoll (s.afterOutputsOf before) = mapNext (·.afterOutputsOf before) (execPoll s) := by
  have htransport (reads : List Read) : { s.afterOutputsOf before with transport := reads } =
      State.afterOutputsOf { s with transport := reads } before := rfl
  simp only [execPoll, afterOutputsOf_transport, htransport, returnPoll_afterOutputsOf, pollPass_afterOutputsOf]
  repeat' split
  all_goals rfl

/-- No instruction reads what has crossed the output ports: each adds to the lists whatever stands there (R33). -/
theorem exec_afterOutputsOf (i : Instr) (s before : State) :
    exec i (s.afterOutputsOf before) = mapNext (·.afterOutputsOf before) (exec i s) := by
  rcases Instr.kind_cases i with hout | hin | ⟨bytes, rfl⟩ | rfl | rfl | rfl
  · obtain ⟨frames, hframes⟩ := exec_outbound hout
    rw [hframes, hframes, transmitAll_afterOutputsOf]
    rfl
  · obtain ⟨length, effect, heffect⟩ := exec_inbound hin
    rw [heffect, heffect]
    rfl
  · exact execFeed_afterOutputsOf bytes s before
  · exact congrArg Host.Outcome.next (presentSnap_afterOutputsOf s before)
  · rfl
  · exact execPoll_afterOutputsOf s before

/-- Settles O57: the run is the one without outputs, after the outputs there were. -/
theorem outputsAreNotRead : Obligations.OutputsAreNotRead := by
  intro i s
  have hrun : exec i s = mapNext (·.afterOutputsOf s) (exec i s.withoutOutputs) := by
    rw [← exec_afterOutputsOf, withoutOutputs_afterOutputsOf]
  cases h : exec i s.withoutOutputs with
  | next u =>
    rw [hrun, h]
    refine ⟨?_, fun r hr => nomatch hr⟩
    rintro t ⟨⟩
    exact ⟨u, rfl, rfl, rfl, rfl, rfl, rfl⟩
  | fault r => cases r
  | refused r =>
    rw [hrun, h]
    exact ⟨fun t ht => (nomatch ht), fun r hr => hr⟩

/-- Settles O49: `SNAP` is `presentSnap`, in every state. -/
theorem snapPresentsTheFields : Obligations.SnapPresentsTheFields :=
  ⟨fun _ => rfl, rfl⟩

/-! ### The reset machine -/

/-- Settles O52: the reset values are the zeros of R34. -/
theorem resetStateIsZeroed : Obligations.ResetStateIsZeroed :=
  ⟨rfl, rfl⟩

/-- Settles O53: an empty buffer has fewer than six bytes, no pass has begun and no port has carried anything. -/
theorem resetMeetsTheInvariant : Obligations.ResetMeetsTheInvariant := by
  intro ops reads
  have hbuf : settled (State.powerUp ops reads).buf := .inl (examine_of_short (Nat.zero_lt_succ 5))
  exact ⟨hbuf, rfl, fun f hf => absurd hf List.not_mem_nil, fun r hr => absurd hr List.not_mem_nil⟩

end Sys2Proof.Machine
end

section
/-! The invariant between operations (R56): every operation that a step can perform keeps it, so it holds along every
run from reset; and the order of a float's bytes (R52). -/

namespace Sys2Proof.Machine

/-! ### What each operation does to the invariant -/

section

variable {s : State} (hs : s.Inv)

include hs

/-- SNAP and its list are not looked at. -/
theorem State.Inv.presentSnap : (presentSnap s).Inv := hs

/-- The booleans of POLL are not looked at. -/
theorem State.Inv.returnPoll (b : Bool) : (returnPoll b s).Inv := hs

/-- What the host will do next is not looked at. -/
theorem State.Inv.withHost (ops : List HostOp) : { s with host := ops }.Inv := hs

/-- What the transport will read next is not looked at. -/
theorem State.Inv.withTransport (reads : List Read) : { s with transport := reads }.Inv := hs

/-- Frames that TX may carry may be presented (R80). -/
theorem State.Inv.withTx {frames : List (List Byte)} (hframes : ∀ f ∈ frames, txFrame f) :
    { s with tx := s.tx ++ frames }.Inv := by
  obtain ⟨hbuf, hpass, htx, hres⟩ := hs
  refine ⟨hbuf, hpass, fun f hf => ?_, hres⟩
  rcases List.mem_append.mp hf with hold | hnew
  · exact htx f hold
  · exact hframes f hnew

/-- RESET leaves an empty buffer, on which a pass stops at once (R230, R131). -/
theorem State.Inv.withReset : { s with ds := DeviceState.reset, buf := [] }.Inv := by
  obtain ⟨-, hpass, htx, hres⟩ := hs
  exact ⟨.inl (examine_of_short (Nat.zero_lt_succ 5)), hpass, htx, hres⟩

/-- A pass leaves a residual, is over, and presents a result whose `updated` says whether it counted a frame (R136,
R29). -/
theorem State.Inv.feedPass (bytes : List Byte) : (feedPass bytes s).Inv := by
  obtain ⟨-, -, htx, hres⟩ := hs
  have hbuf := feedPass_settled bytes s
  rw [feedPass_eq] at hbuf ⊢
  refine ⟨hbuf, rfl, htx, fun r hr => ?_⟩
  rcases List.mem_append.mp hr with hold | hnew
  · exact hres r hold
  · rw [List.mem_singleton.mp hnew]
    exact decide_eq_true_iff

/-- The pass of a POLL is that of a FEED (R194). -/
theorem State.Inv.pollPass (bytes : List Byte) : (pollPass bytes s).Inv := by
  rw [pollPass_eq]
  exact (hs.feedPass bytes).returnPoll _

/-! ### Instructions and steps -/

/-- A feed that completes is a pass (R130). -/
theorem State.Inv.execFeed {bytes : List Byte} {t : State} (hexec : execFeed bytes s = .next t) : t.Inv := by
  rcases execFeed_cases bytes s with ⟨-, hpass⟩ | ⟨-, hrefused⟩
  · cases hpass.symm.trans hexec
    exact hs.feedPass bytes
  · cases hrefused.symm.trans hexec

/-- A poll that completes returns false and does nothing else, or is a pass (R194). -/
theorem State.Inv.execPoll {t : State} (hexec : execPoll s = .next t) : t.Inv := by
  rcases execPoll_cases s with ⟨reads, -, hempty⟩ | ⟨bytes, reads, -, -, -, hpass⟩ | ⟨bytes, reads, -, -, hrefused⟩
  · cases hempty.symm.trans hexec
    exact (hs.withTransport reads).returnPoll false
  · cases hpass.symm.trans hexec
    exact (hs.withTransport reads).pollPass bytes
  · cases hrefused.symm.trans hexec

/-- Every instruction but an inbound one, which runs inside a pass, keeps the invariant (R56). -/
theorem State.Inv.exec {i : Instr} {t : State} (hi : i.isReply = false) (hexec : exec i s = .next t) : t.Inv := by
  rcases Instr.kind_cases i with hout | hin | ⟨bytes, rfl⟩ | rfl | rfl | rfl
  · obtain ⟨frames, hframes, -, hnext⟩ := txDependsOnTheInstructionAlone i hout
    cases (hnext s).symm.trans hexec
    exact hs.withTx hframes
  · exact absurd (hi.symm.trans hin) Bool.false_ne_true
  · exact hs.execFeed hexec
  · cases hexec
    exact hs.presentSnap
  · cases hexec
    exact hs.withReset
  · exact hs.execPoll hexec

end

/-- Settles O54: a step changes nothing or performs the host's next operation, which is no inbound instruction. -/
theorem everyStepKeepsTheInvariant : Obligations.EveryStepKeepsTheInvariant := by
  intro s t hs hstep
  rcases step_cases s with ⟨-, hidle⟩ | ⟨op, ops, -, hop⟩
  · cases hidle.symm.trans hstep
    exact hs
  · exact (hs.withHost ops).exec (decodeOp_isReply op) (hop.symm.trans hstep)

/-! ### Runs -/

/-- A run of one more step that completes is a step and a run that complete. -/
theorem run_succ_eq_next {M : Host.Core} {k : Nat} {s t : M.State} (hrun : M.run (k + 1) s = .next t) :
    ∃ u, M.step s = .next u ∧ M.run k u = .next t := by
  rw [Host.Core.run] at hrun
  split at hrun
  next u hstep => exact ⟨u, hstep, hrun⟩
  all_goals cases hrun

/-- What every step keeps, every run keeps. -/
theorem run_induction {M : Host.Core} {P : M.State → Prop} (hkeep : ∀ s t, P s → M.step s = .next t → P t) (k : Nat)
    {s t : M.State} (hs : P s) (hrun : M.run k s = .next t) : P t := by
  induction k generalizing s with
  | zero => cases hrun; exact hs
  | succ k ih =>
    obtain ⟨u, hstep, hrest⟩ := run_succ_eq_next hrun
    exact ih (hkeep s u hs hstep) hrest

/-- The residual between operations has at most 259 bytes (R143). -/
theorem State.Inv.buf_length_le {s : State} (hs : s.Inv) : s.buf.length ≤ 259 :=
  settled_length hs.1

/-- Settles O55: the reset machine meets the invariant and every step keeps it. -/
theorem everyRunKeepsTheInvariant : Obligations.EveryRunKeepsTheInvariant := by
  intro ops reads k t hrun
  have hinv : t.Inv :=
    run_induction (M := core) (P := State.Inv) everyStepKeepsTheInvariant k (resetMeetsTheInvariant ops reads) hrun
  exact ⟨hinv, hinv.buf_length_le⟩

/-! ### Floats -/

/-- Settles O18: a float's bytes as a number and as a concatenation. -/
theorem floatIsLittleEndian : Obligations.FloatIsLittleEndian :=
  fun b0 b1 b2 b3 => ⟨f32LE_toNat b0 b1 b2 b3, f32LE_eq_append b0 b1 b2 b3⟩

end Sys2Proof.Machine
end

section
/-! Encodings (R80 to R93): the frames of the commands and of the inbound instructions and what they decode to, the
frames that the scan finds, and the checksum. -/

namespace Sys2Proof

/-! ### The checksum -/

/-- The sum of bytes is the sum of the numbers they are, modulo 256 (R12). -/
theorem sum8_toNat (bs : List Byte) : (sum8 bs).toNat = (bs.map BitVec.toNat).sum % 256 := by
  induction bs with
  | nil => rfl
  | cons b bs ih => simp [ih]

/-- The checksum as a number (R84). -/
theorem cksum_toNat (fid len : Byte) (payload : List Byte) :
    (cksum fid len payload).toNat = (fid.toNat + len.toNat + (payload.map BitVec.toNat).sum) % 256 := by
  rw [cksum, sum8_toNat, List.map_cons, List.map_cons, List.sum_cons, List.sum_cons, Nat.add_assoc]

/-- Settles O16: as a number the checksum is a sum, and a sum does not depend on the order of what is added. -/
theorem checksumIsTheSumModulo256 : Obligations.ChecksumIsTheSumModulo256 := by
  intro fid len payload
  refine ⟨cksum_toNat fid len payload, fun other hperm => BitVec.eq_of_toNat_eq ?_⟩
  rw [cksum_toNat, cksum_toNat, (hperm.map BitVec.toNat).sum_eq]

/-! ### Valid frames -/

/-- The valid frames for a direction are exactly the frames of the format with their checksum last, under any command
code (R81, R83). -/
theorem frameValid_iff {d : Byte} {s : List Byte} :
    frameValid d s = true ↔ ∃ cmd fid len payload, payload.length = len.toNat ∧
      s = d :: cmd :: fid :: len :: (payload ++ [cksum fid len payload]) := by
  constructor
  · intro h
    match s, h with
    | hd :: cmd :: fid :: len :: rest, h =>
      simp only [frameValid, Bool.and_eq_true, beq_iff_eq] at h
      obtain ⟨⟨rfl, hlen⟩, hlast⟩ := h
      obtain ⟨hlt, hget⟩ := List.getElem?_eq_some_iff.mp hlast
      refine ⟨cmd, fid, len, rest.take len.toNat, by simp [hlen], ?_⟩
      rw [← hget, List.take_append_getElem, List.take_of_length_le hlen.le]
  · rintro ⟨cmd, fid, len, payload, hlen, rfl⟩
    simp [frameValid, ← hlen]

/-- Settles O17: the checksum of `out6` and the test of `frameValid` read neither byte. -/
theorem checksumIgnoresHeaderAndCommand : Obligations.ChecksumIgnoresHeaderAndCommand := by
  refine ⟨fun dir cmd dir' cmd' fid val => rfl, fun dir cmd cmd' rest => ?_⟩
  match rest with
  | [] | [_] | _ :: _ :: _ => rfl

/-- What the scan finds at the head of some bytes (R131 to R135). -/
theorem examine_eq_frame_iff {b : List Byte} {fid : Byte} {payload : List Byte} :
    examine b = .frame fid payload ↔ 6 ≤ b.length ∧ ∃ len tail, payload.length = len.toNat ∧
      b = 0xF0 :: 0xA1 :: fid :: len :: (payload ++ cksum fid len payload :: tail) := by
  constructor
  · intro h
    rcases examine_cases b with ⟨hfew, -⟩ | ⟨b0, b1, fid', len, rest, rfl, hrest, ⟨hstart, -⟩ | ⟨-, -, hinc, -⟩ |
      ⟨_, _, _, -, -, -, -, -, hbad⟩ | ⟨payload', tail, rfl, rfl, rfl, hlen, hframe⟩⟩
    · cases hfew.symm.trans h
    · cases hstart.symm.trans h
    · cases hinc.symm.trans h
    · cases hbad.symm.trans h
    · cases hframe.symm.trans h
      exact ⟨by simpa using hrest, len, tail, hlen, rfl⟩
  · rintro ⟨h6, len, tail, hlen, rfl⟩
    exact examine_frame hlen (by simp at h6; omega)

/-- Settles O12: both sides say that six bytes are there and the frame of `fid` and `payload` stands first. -/
theorem frameFoundIffValid : Obligations.FrameFoundIffValid := by
  intro b fid payload
  rw [examine_eq_frame_iff]
  refine and_congr_right fun _ => ⟨?_, ?_⟩
  · rintro ⟨len, tail, hlen, rfl⟩
    refine ⟨0xF0 :: 0xA1 :: fid :: len :: (payload ++ [cksum fid len payload]), tail, by simp,
      frameValid_iff.mpr ⟨_, _, _, _, hlen, rfl⟩, rfl, rfl, ?_⟩
    simp
  · rintro ⟨frame, tail, rfl, hvalid, hcmd, hfid, rfl⟩
    obtain ⟨cmd, fid', len, payload, hlen, rfl⟩ := frameValid_iff.mp hvalid
    cases hcmd
    cases hfid
    exact ⟨len, tail, by simp [hlen], by simp⟩

/-! ### Inbound instructions -/

/-- An inbound instruction's frame is that of its identifier and payload (R81, R87). -/
theorem encode_of_reply {i : Instr} {fid : Byte} {payload : List Byte} (h : i.reply = some (fid, payload)) :
    encode i = some (invar fid payload) := by
  cases i
  case rVin | rOut | rTemp | rOutEn | rModel | rHwVer | rFwVer | rVMax | rIMax | rAll | rOther => cases h; rfl
  all_goals cases h

/-- The payload of a well-formed inbound instruction fits the length byte (R9, R81). -/
theorem payload_length_le_of_reply {i : Instr} {fid : Byte} {payload : List Byte} (h : i.reply = some (fid, payload))
    (hw : WellFormed i) : payload.length ≤ 255 := by
  cases i
  case rOther => cases h; exact of_decide_eq_true (Bool.and_eq_true_iff.mp hw).2
  case rVin | rOut | rTemp | rOutEn | rModel | rHwVer | rFwVer | rVMax | rIMax | rAll =>
    cases h; exact of_decide_eq_true hw
  all_goals cases h

/-- Every well-formed inbound instruction is the one of an identifier and a payload of at most 255 bytes, and its frame
is theirs (R81, R87). -/
theorem exists_invar_of_isReply {i : Instr} (hi : i.isReply = true) (hw : WellFormed i) :
    ∃ fid payload, decodeReply fid payload = i ∧ payload.length ≤ 255 ∧ encode i = some (invar fid payload) := by
  obtain ⟨fid, payload, hreply⟩ := Instr.exists_reply_of_isReply hi
  exact ⟨fid, payload, decodeReply_of_reply hreply hw, payload_length_le_of_reply hreply hw, encode_of_reply hreply⟩

/-- A frame that the scan finds is read as the instruction of its identifier and payload (R135, R160). -/
theorem decodeFrame_of_examine {r : List Byte} {fid : Byte} {payload : List Byte} (h : examine r = .frame fid payload) :
    decodeFrame r = .ok (decodeReply fid payload) := by
  rw [decodeFrame, h]

/-- Settles O10: the scan finds the frame where it looks, and the opcode map undoes the encoder. -/
theorem inboundFramesRoundTrip : Obligations.InboundFramesRoundTrip := by
  intro i tail hi hw
  obtain ⟨fid, payload, rfl, hlen, hencode⟩ := exists_invar_of_isReply hi hw
  refine ⟨invar fid payload, hencode, fun h6 => ?_⟩
  have hseen : 6 ≤ payload.length + tail.length + 5 := by simp at h6; omega
  exact decodeFrame_of_examine (examine_invar hlen hseen)

/-- Settles O14: the length byte of `invar` is the payload's length, which fits a byte. -/
theorem frameLengthFromItsLengthByte : Obligations.FrameLengthFromItsLengthByte := by
  intro i bytes hi hw hbytes
  obtain ⟨fid, payload, -, hlen, hencode⟩ := exists_invar_of_isReply hi hw
  cases hencode.symm.trans hbytes
  have hbyte : (BitVec.ofNat 8 payload.length).toNat = payload.length := by simp; omega
  refine ⟨BitVec.ofNat 8 payload.length, rfl, ?_⟩
  rw [hbyte, invar_length]
  exact ⟨rfl, Nat.le_add_left .., Nat.add_le_add_right hlen 5⟩

/-! ### Outbound instructions -/

/-- A command's frame is that of its operands (R80). -/
theorem encode_of_operands {i : Instr} {dir cmd fid val : Byte} (h : i.operands = some (dir, cmd, fid, val)) :
    encode i = some (out6 dir cmd fid val) := by
  rw [encode, h]

/-- A command's canonical form is what its operands decode to (R86, R92). -/
theorem canonical_of_operands {i : Instr} {dir cmd fid val : Byte} (h : i.operands = some (dir, cmd, fid, val)) :
    i.canonical = decodeCommand dir cmd fid val := by
  rw [Instr.canonical, h]

/-- Operands that spell no named form are those of `ENC` (R86, R92). -/
theorem decodeCommand_eq_enc {dir cmd fid val : Byte}
    (h : dir ≠ 0xF1 ∨ ¬ (cmd = 0xA1 ∧ val = 0 ∨ cmd = 0xB1 ∨ cmd = 0xC0 ∨ cmd = 0xC1)) :
    decodeCommand dir cmd fid val = .enc dir cmd fid val := by
  by_cases hdir : dir = 0xF1
  · obtain ⟨hget, hset, hc0, hc1⟩ : ¬ (cmd = 0xA1 ∧ val = 0) ∧ cmd ≠ 0xB1 ∧ cmd ≠ 0xC0 ∧ cmd ≠ 0xC1 := by
      simpa only [not_or] using h.resolve_left (not_not_intro hdir)
    rw [decodeCommand, if_pos hdir, if_neg hget, if_neg hset, if_neg hc0, if_neg hc1]
  · exact if_neg hdir

/-- `GET` of any identifier but 255 is no other named form (R111, R191). -/
theorem canonical_get {fid : Byte} (h : fid ≠ 255) : (Instr.get fid).canonical = .get fid :=
  if_neg h

/-- `SET` is a named form of its own but for the switching of the output (R112, R192, R193). -/
theorem canonical_set {fid val : Byte} (hon : ¬ (fid = 219 ∧ val = 1)) (hoff : ¬ (fid = 219 ∧ val = 0)) :
    (Instr.set fid val).canonical = .set fid val :=
  (if_neg hon).trans (if_neg hoff)

/-- A command that spells no other named form is its own canonical form (R92). Log 9. -/
theorem canonical_eq_self {i : Instr} (hi : i.isCommand = true)
    (henc : ∀ dir cmd fid val, i = .enc dir cmd fid val →
      dir ≠ 0xF1 ∨ ¬ (cmd = 0xA1 ∧ val = 0 ∨ cmd = 0xB1 ∨ cmd = 0xC0 ∨ cmd = 0xC1))
    (hall : i ≠ .get 255) (hon : i ≠ .set 219 1) (hoff : i ≠ .set 219 0) : i.canonical = i := by
  cases i
  case enc dir cmd fid val => exact decodeCommand_eq_enc (henc dir cmd fid val rfl)
  case get fid => exact canonical_get fun h => hall (congrArg Instr.get h)
  case set fid val =>
    exact canonical_set (fun h => hon (congrArg₂ Instr.set h.1 h.2)) fun h => hoff (congrArg₂ Instr.set h.1 h.2)
  case initC0 | initC1 | requestAll | enable | disable => rfl
  all_goals cases hi

/-! ### The spec's own words -/

/-- Settles O13: each is one closed word (V-E11, V-E2, V-E19, V-D1, V-D3, V-D15), which the decoder evaluates. -/
theorem specWordsDecode : Obligations.SpecWordsDecode := by
  refine ⟨rfl, rfl, rfl, ?_, ?_, ?_⟩ <;> decide

end Sys2Proof

namespace Sys2Proof.Machine

/-- Settles O11: a command and its canonical form have the same operands, and these are all that its frame and its
outcome depend on. -/
theorem outboundFramesRoundTrip : Obligations.OutboundFramesRoundTrip := by
  intro i hi
  obtain ⟨dir, cmd, fid, val, hops⟩ := Instr.exists_operands_of_isCommand hi
  have hcanonical : i.canonical = decodeCommand dir cmd fid val := canonical_of_operands hops
  have hops' : i.canonical.operands = some (dir, cmd, fid, val) := hcanonical ▸ decodeCommand_operands dir cmd fid val
  refine ⟨⟨_, encode_of_operands hops, ?_⟩, fun s => ?_, ?_, canonical_eq_self hi⟩
  · rw [decodeOut6_out6, hcanonical]
  · rw [exec_of_operands hops, exec_of_operands hops']
  · rw [canonical_of_operands hops', hcanonical]

/-- Settles O7: TX shows the four operands, at bytes 0, 1, 2 and 4 of the one frame added to it. -/
theorem encIsInjective : Obligations.EncIsInjective := by
  intro dir cmd fid val dir' cmd' fid' val' s
  refine ⟨fun h => ?_, _, out6 dir cmd fid val, exec_of_operands rfl s, rfl, rfl, rfl, rfl, rfl⟩
  have htx : s.tx ++ [out6 dir cmd fid val] = s.tx ++ [out6 dir' cmd' fid' val'] :=
    congrArg State.tx (Host.Outcome.next.inj h)
  have hframe : out6 dir cmd fid val = out6 dir' cmd' fid' val' :=
    List.singleton_inj.mp (List.append_cancel_left htx)
  cases hframe
  exact ⟨rfl, rfl, rfl, rfl⟩

end Sys2Proof.Machine
end

section
/-! The bytes of the outgoing frames (R110 to R115, R193), with the checksum as the number the spec gives. -/

namespace Sys2Proof

/-- The checksum of an outgoing frame as a sum of numbers (R84, R110). -/
theorem cksum_outLen (fid val : Byte) :
    cksum fid Config.outLen [val] = BitVec.ofNat 8 ((fid.toNat + 1 + val.toNat) % 256) := by
  apply BitVec.eq_of_toNat_eq
  rw [cksum_toNat, BitVec.toNat_ofNat, Nat.mod_mod]
  rfl

/-- The six bytes of an outgoing frame (R80, R110). -/
theorem out6_eq (dir cmd fid val : Byte) :
    out6 dir cmd fid val = [dir, cmd, fid, 0x01, val, BitVec.ofNat 8 ((fid.toNat + 1 + val.toNat) % 256)] := by
  rw [out6, cksum_outLen]

end Sys2Proof

namespace Sys2Proof.Machine

/-- A command presents the six bytes of its operands on TX and changes nothing else (R110 to R114). -/
theorem exec_presents_bytes {i : Instr} {dir cmd fid val : Byte} (h : i.operands = some (dir, cmd, fid, val))
    (s : State) :
    exec i s = .next { s with
      tx := s.tx ++ [[dir, cmd, fid, 0x01, val, BitVec.ofNat 8 ((fid.toNat + 1 + val.toNat) % 256)]] } := by
  rw [exec_of_operands h, transmit, out6_eq]

/-- Settles O1: the frame is that of the operands, and 256 is the only multiple of 256 from 1 to 511, where the sum of
two bytes and 1 lies. -/
theorem encPresentsItsFrame : Obligations.EncPresentsItsFrame := by
  intro dir cmd fid val s
  have hfid : fid.toNat < 256 := fid.isLt
  have hval : val.toNat < 256 := val.isLt
  exact ⟨exec_presents_bytes rfl s, by omega⟩

/-- Settles O2: the four named forms present the frames of their operands, `GET` with the value 0. -/
theorem namedCommandsPresentTheirFrames : Obligations.NamedCommandsPresentTheirFrames :=
  fun _ _ s =>
    ⟨exec_presents_bytes rfl s, exec_presents_bytes rfl s, exec_presents_bytes rfl s, exec_presents_bytes rfl s⟩

/-- Settles O4: DISABLE has the operands of `SET 219, 0`, and 219 + 1 + 0 is 0xDC. -/
theorem disablePresentsItsFrame : Obligations.DisablePresentsItsFrame :=
  exec_presents_bytes rfl

/-- Settles O6: the frame is valid for its direction whatever its operands are, and its bytes are those of R110. -/
theorem encodedFrameIsValid : Obligations.EncodedFrameIsValid := by
  intro cmd fid val s
  refine ⟨_, out6 0xF1 cmd fid val, exec_of_operands rfl s, transmit_tx .., frameValid_out6 .., rfl, rfl, rfl, ?_⟩
  rw [out6_eq]
  rfl

end Sys2Proof.Machine
end

section
/-! One position of the scan (R131 to R135), told by the bytes of BUF from `pos` on: where the scan stops, what it
skips, what it validates and runs; and the frame of every inbound instruction (R135). -/

namespace Sys2Proof

/-! ### The bytes from a position on -/

section

variable {B r : List Byte} {p : Nat} (h : B.drop p = r)

include h

/-- A byte of a list is one of the bytes from an earlier position on. -/
theorem getElem?_add_of_drop (k : Nat) : B[p + k]? = r[k]? := by
  rw [← h, List.getElem?_drop]

/-- How many bytes there are from a position on. -/
theorem length_sub_of_drop : B.length - p = r.length := by
  rw [← h, List.length_drop]

/-- A slice of a list is one of the bytes from an earlier position on. -/
theorem extract_add_of_drop (i j : Nat) : B.extract (p + i) (p + j) = r.extract i j := by
  rw [← h, List.extract_eq_take_drop, List.extract_eq_take_drop, List.drop_drop, Nat.add_sub_add_left]

end

/-- Bytes whose first four are known. -/
theorem exists_eq_cons_of_getElem? {r : List Byte} {b0 b1 b2 b3 : Byte} (h0 : r[0]? = some b0) (h1 : r[1]? = some b1)
    (h2 : r[2]? = some b2) (h3 : r[3]? = some b3) : ∃ tail, r = b0 :: b1 :: b2 :: b3 :: tail := by
  match r with
  | _ :: _ :: _ :: _ :: tail => cases h0; cases h1; cases h2; cases h3; exact ⟨tail, rfl⟩

/-- Bytes more than `n` are `n` bytes, the byte after them, and the others. -/
theorem exists_eq_append_cons {l : List Byte} {n : Nat} (h : n < l.length) :
    ∃ payload c tail, l = payload ++ c :: tail ∧ payload.length = n :=
  ⟨l.take n, l[n], l.drop (n + 1), by rw [← List.drop_eq_getElem_cons, List.take_append_drop],
    List.length_take_of_le h.le⟩

/-! ### A candidate whose bytes are all there -/

section

variable {B payload tail : List Byte} {p : Nat} {fid len c : Byte} (hlen : payload.length = len.toNat)
  (h : B.drop p = 0xF0 :: 0xA1 :: fid :: len :: (payload ++ c :: tail))

include hlen h

/-- Its computed checksum is the sum of the bytes from its identifier to the end of its payload (R84, R134). -/
theorem cksum_eq_sum8_extract : cksum fid len payload = sum8 (B.extract (p + 2) (p + 4 + len.toNat)) := by
  rw [Nat.add_assoc, extract_add_of_drop h, cksum, ← hlen, Nat.add_comm]
  simp

/-- Its payload (R134). -/
theorem extract_payload : B.extract (p + 4) (p + 4 + len.toNat) = payload := by
  rw [Nat.add_assoc, extract_add_of_drop h, ← hlen]
  simp

/-- Its checksum byte (R134). -/
theorem getElem?_received : B[p + 4 + len.toNat]? = some c := by
  rw [Nat.add_assoc, getElem?_add_of_drop h, ← hlen, Nat.add_comm]
  simp

/-- Its bytes are there (R133). -/
theorem not_length_sub_lt : ¬ B.length - p < len.toNat + 5 := by
  rw [length_sub_of_drop h, ← hlen]
  simp

end

/-! ### Verdicts -/

/-- Bytes whose first two are not header and reply command code are no start (R132). -/
theorem examine_notStart {r : List Byte} (h6 : 6 ≤ r.length) (h : r[0]? ≠ some 0xF0 ∨ r[1]? ≠ some 0xA1) :
    examine r = .notStart := by
  obtain ⟨b0, b1, fid, len, rest, rfl, hrest⟩ := exists_head h6
  rw [examine_of_long hrest, if_pos]
  simpa using h

/-- A candidate whose bytes are not all there is incomplete (R133). -/
theorem examine_incomplete {fid len : Byte} {rest : List Byte} (h2 : 2 ≤ rest.length)
    (h : rest.length < len.toNat + 1) : examine (0xF0 :: 0xA1 :: fid :: len :: rest) = .incomplete := by
  rw [examine_of_long h2]
  simp [h]

end Sys2Proof

namespace Sys2Proof.Machine

/-! ### Inbound instructions -/

/-- Settles O26: an inbound instruction is the dispatch rule of its frame, or `R.OTHER` of any identifier; either
consumes the frame after a write or after one event. -/
theorem repliesChangeOnlyDsAndThePass : Obligations.RepliesChangeOnlyDsAndThePass := by
  intro i fid p s hreply
  rcases Instr.eq_decodeReply_or_rOther hreply with rfl | rfl
  · refine ⟨_, _, exec_decodeReply_eq_afterFrame fid p s, ?_⟩
    rcases dispatchEffect_event s.ds fid p with hnone | ⟨e, hone⟩
    · simp [hnone]
    · simp [hone]
  · exact ⟨s.ds, [.unrecognizedField fid p.length], congrArg Host.Outcome.next (consumeFrame_raise ..), Nat.le_refl 1,
      fun _ => rfl⟩

/-! ### One position of the scan -/

/-- The scan stops exactly where the bytes from `pos` on are settled (R131, R133). -/
theorem scanStep_eq_none {s : State} : scanStep s = none ↔ settled (rest s) := by
  rw [scanStep_eq, Option.map_eq_none_iff, verdictMove_eq_none]

theorem scanStep_of_notStart {s : State} (h : examine (rest s) = .notStart) : scanStep s = some (resync s) := by
  rw [scanStep, h]

theorem scanStep_of_badChecksum {s : State} {fid c r : Byte} {length : Nat}
    (h : examine (rest s) = .badChecksum fid length c r) :
    scanStep s = some (takeChecksumError fid length c r s) := by
  rw [scanStep, h]

/-- A frame is dispatched and consumed, as the execution of its instruction is (R135, R160). -/
theorem scanStep_of_frame {s : State} {fid : Byte} {payload : List Byte} (h : examine (rest s) = .frame fid payload) :
    scanStep s = some (s.afterFrame (dispatchEffect s.ds fid payload).1 payload.length
      (dispatchEffect s.ds fid payload).2) := by
  rw [scanStep, h]
  exact congrArg some (Host.Outcome.next.inj
    ((exec_decodeReply fid payload s).symm.trans (exec_decodeReply_eq_afterFrame fid payload s)))

/-- Settles O30: the verdict on the bytes from `pos` on is that of step 1, 2 or 3. -/
theorem scanStopsAndSkips : Obligations.ScanStopsAndSkips := by
  intro s
  have hrest : s.buf.drop s.pass.pos = rest s := rfl
  have hget (k : Nat) : s.buf[s.pass.pos + k]? = (rest s)[k]? := getElem?_add_of_drop hrest k
  rw [length_sub_of_drop hrest, show s.buf[s.pass.pos]? = (rest s)[0]? from hget 0, hget, hget]
  refine ⟨fun hfew => scanStep_eq_none.mpr (.inl (examine_of_short hfew)), fun hsix => ⟨fun hstart => ?_, ?_⟩⟩
  · exact scanStep_of_notStart (examine_notStart (Nat.le_of_not_lt hsix) hstart)
  · intro len h0 h1 h3 hpart
    obtain ⟨b0, b1, fid, len', tail, hhead, htail⟩ := exists_head (Nat.le_of_not_lt hsix)
    rw [hhead] at h0 h1 h3 hpart
    cases h0
    cases h1
    cases h3
    refine scanStep_eq_none.mpr (.inr ?_)
    rw [hhead]
    exact examine_incomplete htail (by simpa using hpart)

/-- Settles O31: the candidate is its header, command code, identifier, length, payload and checksum byte, and the
verdict on it is that of step 4. -/
theorem scanValidatesTheChecksum : Obligations.ScanValidatesTheChecksum := by
  intro s fid len hsix h0 h1 h2 h3 hall
  have hget (k : Nat) : s.buf[s.pass.pos + k]? = (rest s)[k]? := getElem?_add_of_drop rfl k
  obtain ⟨body, hbody⟩ := exists_eq_cons_of_getElem? ((hget 0).symm.trans h0) ((hget 1).symm.trans h1)
    ((hget 2).symm.trans h2) ((hget 3).symm.trans h3)
  rw [length_sub_of_drop hbody] at hsix hall
  obtain ⟨payload, r, tail, rfl, hlen⟩ :=
    exists_eq_append_cons (l := body) (n := len.toNat) (by simp at hall; omega)
  have h6 : 6 ≤ payload.length + tail.length + 5 := by simp at hsix; omega
  refine ⟨cksum fid len payload, r, cksum_eq_sum8_extract hlen hbody, getElem?_received hlen hbody,
    fun hbad => ?_, ?_⟩
  · have hverdict := hbody ▸ examine_badChecksum hlen h6 hbad
    rw [hlen] at hverdict
    exact scanStep_of_badChecksum hverdict
  · rintro rfl
    rw [extract_payload hlen hbody]
    refine ⟨_, exec_decodeReply_eq_afterFrame fid payload s, ?_, ?_, rfl⟩
    · exact scanStep_of_frame (hbody ▸ examine_frame hlen h6)
    · rw [← hlen]
      rfl

/-! ### The output ports -/

/-- Settles O58: what an instruction presents is what it presents where nothing was presented before, added at the
end (O57). -/
theorem outputsOnlyGrow : Obligations.OutputsOnlyGrow := by
  intro i s t hexec
  obtain ⟨u, -, -, htx, hres, hsnap, hpolled⟩ := (outputsAreNotRead i s).1 t hexec
  exact ⟨⟨u.tx, htx.symm⟩, ⟨u.res, hres.symm⟩, ⟨u.snap, hsnap.symm⟩, ⟨u.polled, hpolled.symm⟩⟩

end Sys2Proof.Machine
end

section
/-! Whole passes (R130 to R148): FEED is the reference function of R139, a stream may be split into feeds anywhere
(R144), and what a pass makes of garbage, of altered, partial, empty and outgoing frames. -/

namespace Sys2Proof.Machine

/-! ### Moves and stops -/

/-- Everything on which the scan stops (R131, R133). -/
theorem settled_cases {b : List Byte} (h : settled b) :
    b.length < 6 ∨ ∃ fid len rest, b = 0xF0 :: 0xA1 :: fid :: len :: rest ∧ 2 ≤ rest.length ∧
      rest.length < len.toNat + 1 := by
  rcases examine_cases b with ⟨-, hfew⟩ | ⟨b0, b1, fid, len, rest, rfl, hrest, ⟨hverdict, -⟩ | ⟨rfl, rfl, -, hpart⟩ |
      ⟨_, _, _, -, -, -, -, -, hverdict⟩ | ⟨_, _, -, -, -, -, hverdict⟩⟩
  · exact .inl hfew
  · simp [settled, hverdict] at h
  · exact .inr ⟨fid, len, rest, rfl, hrest, hpart⟩
  · simp [settled, hverdict] at h
  · simp [settled, hverdict] at h

/-- Everything the scan moves on from, and how (R132, R134, R135). -/
theorem verdictMove_cases {d : DeviceState} {b : List Byte} {m : DeviceState × Nat × Nat × List Event}
    (h : verdictMove d (examine b) = some m) :
    6 ≤ b.length ∧
    (((b[0]? ≠ some 0xF0 ∨ b[1]? ≠ some 0xA1) ∧ m = (d, 1, 0, [])) ∨
     (∃ fid len payload c tail, b = 0xF0 :: 0xA1 :: fid :: len :: (payload ++ c :: tail) ∧
       payload.length = len.toNat ∧ cksum fid len payload ≠ c ∧
       m = (d, 1, 0, [.checksumError fid len.toNat (cksum fid len payload) c])) ∨
     (∃ fid len payload tail, b = 0xF0 :: 0xA1 :: fid :: len :: (payload ++ cksum fid len payload :: tail) ∧
       payload.length = len.toNat ∧
       m = ((dispatchEffect d fid payload).1, len.toNat + 5, 1, (dispatchEffect d fid payload).2))) := by
  refine ⟨(verdictMove_bounds h).1, ?_⟩
  rcases examine_cases b with ⟨hverdict, -⟩ | ⟨b0, b1, fid, len, rest, rfl, -, ⟨hverdict, hstart⟩ |
      ⟨-, -, hverdict, -⟩ | ⟨payload, c, tail, rfl, rfl, rfl, hlen, hbad, hverdict⟩ |
      ⟨payload, tail, rfl, rfl, rfl, hlen, hverdict⟩⟩
  · simp [hverdict, verdictMove] at h
  · rw [hverdict] at h
    cases h
    exact .inl ⟨by simpa using hstart, rfl⟩
  · simp [hverdict, verdictMove] at h
  · rw [hverdict] at h
    cases h
    exact .inr (.inl ⟨fid, len, payload, c, tail, rfl, hlen, hbad, rfl⟩)
  · rw [hverdict] at h
    cases h
    exact .inr (.inr ⟨fid, len, payload, tail, rfl, hlen, by rw [hlen]⟩)

/-! ### The reference function -/

/-- The walk of a pass over the bytes from `p` on is the reference function from there (R139): each move or stop is
one line of it. -/
theorem scans_wholeWalk (d : DeviceState) (b : List Byte) {B : List Byte} {p : Nat} (hb : B.drop p = b) (n : Nat)
    (E : List Event) :
    Scans B p d n E (B.drop (p + (wholeWalk d b).pos)) (wholeWalk d b).ds (n + (wholeWalk d b).nframes)
      (E ++ (wholeWalk d b).evt) := by
  induction d, b using wholeWalk_induction generalizing p n E with
  | stop d b hstop =>
    simp only [wholeWalk_none hstop, Nat.add_zero, List.append_nil]
    by_cases hsix : b.length < 6
    · exact .stop (by rwa [length_sub_of_drop hb])
    · obtain ⟨fid, len, rest, rfl, -, hpart⟩ := (settled_cases hstop).resolve_left hsix
      have hget := getElem?_add_of_drop hb
      rw [← length_sub_of_drop hb] at hsix
      refine .wait hsix (hget 0) (hget 1) (hget 3) ?_
      rw [length_sub_of_drop hb]
      simpa using hpart
  | move d b m hmove ih =>
    have hnext : B.drop (p + m.2.1) = b.drop m.2.1 := by rw [← hb, List.drop_drop]
    have hscans := ih hnext (n + m.2.2.1) (E ++ m.2.2.2)
    simp only [Nat.add_assoc, List.append_assoc] at hscans
    rw [wholeWalk_some hmove]
    obtain ⟨hsix, hcases⟩ := verdictMove_cases hmove
    rw [← Nat.not_lt, ← length_sub_of_drop hb] at hsix
    have hget := getElem?_add_of_drop hb
    rcases hcases with ⟨hstart, rfl⟩ | ⟨fid, len, payload, c, tail, rfl, hlen, hbad, rfl⟩ |
      ⟨fid, len, payload, tail, rfl, hlen, rfl⟩
    · rw [List.append_nil] at hscans
      refine .skip hsix ?_ hscans
      rwa [show B[p]? = b[0]? from hget 0, hget]
    · exact .mismatch hsix (hget 0) (hget 1) (hget 2) (hget 3) (not_length_sub_lt hlen hb)
        (cksum_eq_sum8_extract hlen hb) (getElem?_received hlen hb) hbad hscans
    · exact .apply hsix (hget 0) (hget 1) (hget 2) (hget 3) (not_length_sub_lt hlen hb)
        (cksum_eq_sum8_extract hlen hb) (getElem?_received hlen hb) (extract_payload hlen hb).symm hscans

/-- A feed within MAX_FEED, told by the walk of its pass (R130, R136). -/
theorem exec_feed_of_wholeWalk {bytes : List Byte} {s : State} {w : Walk} (hlen : bytes.length ≤ Config.maxFeed)
    (hw : wholeWalk s.ds (s.buf ++ bytes) = w) :
    exec (.feed bytes) s = .next { s with
      ds := w.ds
      buf := (s.buf ++ bytes).drop w.pos
      pass := Pass.start
      res := s.res ++ [⟨decide (0 < w.nframes), w.nframes, w.evt⟩] } := by
  rw [exec_feed_of_le hlen, feedPass_eq, hw]

/-- Settles O33: the pass is its walk, and the walk from position 0 is the reference function. -/
theorem feedIsTheReferenceScan : Obligations.FeedIsTheReferenceScan := by
  intro bytes s hlen
  have hscans := scans_wholeWalk s.ds (s.buf ++ bytes) (B := s.buf ++ bytes) (p := 0) rfl 0 []
  simp only [Nat.zero_add, List.nil_append] at hscans
  exact ⟨_, _, _, _, hscans, exec_feed_of_wholeWalk hlen rfl⟩

/-! ### Fragmentation -/

/-- What a stream of bytes makes of a state, however it is fed: DS and BUF are those of one walk over the residual and
all the bytes, and the results on RES add up to its events and its frames (R144). -/
structure Streamed (s : State) (bytes : List Byte) (t : State) (results : List PassResult) : Prop where
  ds : t.ds = (wholeWalk s.ds (s.buf ++ bytes)).ds
  buf : t.buf = (s.buf ++ bytes).drop (wholeWalk s.ds (s.buf ++ bytes)).pos
  res : t.res = s.res ++ results
  evt : results.flatMap PassResult.evt = (wholeWalk s.ds (s.buf ++ bytes)).evt
  nframes : (results.map PassResult.nframes).sum = (wholeWalk s.ds (s.buf ++ bytes)).nframes

/-- The walk over bytes and more bytes, in two parts (R144). -/
theorem wholeWalk_append (d : DeviceState) (a b : List Byte) :
    wholeWalk d (a ++ b) =
      let w := wholeWalk d a
      let v := wholeWalk w.ds (a.drop w.pos ++ b)
      ⟨v.ds, w.pos + v.pos, w.nframes + v.nframes, w.evt ++ v.evt⟩ :=
  walk_append (Nat.le_add_right ..) (Nat.le_add_right ..) (Nat.le_add_right ..)

/-- A pass stays within its bytes (R28). -/
theorem wholeWalk_pos_le (d : DeviceState) (b : List Byte) : (wholeWalk d b).pos ≤ b.length :=
  walk_pos_le b.length d b

/-- One pass streams its bytes, with one result. -/
theorem streamed_feedPass (bytes : List Byte) (s : State) : ∃ r, Streamed s bytes (feedPass bytes s) [r] := by
  rw [feedPass_eq]
  exact ⟨_, rfl, rfl, rfl, List.append_nil _, List.sum_singleton⟩

/-- Streaming some bytes and then others is streaming them all (R144). -/
theorem Streamed.trans {s t u : State} {a b : List Byte} {ra rb : List PassResult} (ha : Streamed s a t ra)
    (hb : Streamed t b u rb) : Streamed s (a ++ b) u (ra ++ rb) := by
  have hwalk := wholeWalk_append s.ds (s.buf ++ a) b
  have hdrop := List.drop_append_of_le_length (l₂ := b) (wholeWalk_pos_le s.ds (s.buf ++ a))
  simp only [← ha.ds, ← ha.buf] at hwalk
  constructor
  · rw [← List.append_assoc, hwalk, hb.ds]
  · rw [← List.append_assoc, hwalk, hb.buf, ← List.drop_drop, ha.buf, ← hdrop]
  · rw [hb.res, ha.res, List.append_assoc]
  · rw [← List.append_assoc, hwalk, List.flatMap_append, ha.evt, hb.evt]
  · rw [← List.append_assoc, hwalk, List.map_append, List.sum_append, ha.nframes, hb.nframes]

/-- What the host will do next is not looked at. -/
theorem Streamed.withHost {s t : State} {bytes : List Byte} {results : List PassResult}
    (h : Streamed s bytes t results) (ops : List HostOp) : Streamed s bytes { t with host := ops } results :=
  ⟨h.ds, h.buf, h.res, h.evt, h.nframes⟩

/-- Settles O40: the two feeds stream the bytes that the one feed streams. -/
theorem fragmentationDoesNotMatter : Obligations.FragmentationDoesNotMatter := by
  intro a b s hlen
  have hlens : a.length ≤ Config.maxFeed ∧ b.length ≤ Config.maxFeed := by simp at hlen; omega
  obtain ⟨ra, ha⟩ := streamed_feedPass a s
  obtain ⟨rb, hb⟩ := streamed_feedPass b (feedPass a s)
  obtain ⟨r, hab⟩ := streamed_feedPass (a ++ b) s
  have htwo := ha.trans hb
  refine ⟨_, _, _, ra, rb, r, exec_feed_of_le hlens.1 s, exec_feed_of_le hlens.2 _, exec_feed_of_le hlen s,
    htwo.buf.trans hab.buf.symm, htwo.ds.trans hab.ds.symm, htwo.res, hab.res, ?_, ?_⟩
  · simpa using hab.evt.trans htwo.evt.symm
  · simpa using hab.nframes.trans htwo.nframes.symm

/-- A run whose first step completes is the run from there. -/
theorem run_succ_of_step {M : Host.Core} {k : Nat} {s t : M.State} (h : M.step s = .next t) :
    M.run (k + 1) s = M.run k t := by
  rw [Host.Core.run, h]

/-- A step on a feed of the host runs its pass, which neither reads nor writes what the host does next. -/
theorem step_feed {bytes : List Byte} (hlen : bytes.length ≤ Config.maxFeed) (ops : List HostOp) (s : State) :
    step { s with host := .feed bytes :: ops } = .next { feedPass bytes s with host := ops } := by
  rw [step_of_host_cons rfl, decodeOp, exec_feed_of_le hlen, feedPass_eq, feedPass_eq]

/-- Running one feed or more completes, and streams all their bytes. -/
theorem run_feeds {a : List Byte} {feeds : List (List Byte)} (hlen : ∀ b ∈ a :: feeds, b.length ≤ Config.maxFeed)
    (s : State) :
    ∃ t results, core.run (a :: feeds).length { s with host := (a :: feeds).map .feed } = .next t ∧
      Streamed s (a :: feeds).flatten t results := by
  obtain ⟨ha, hfeeds⟩ := List.forall_mem_cons.mp hlen
  have hstep := step_feed ha (feeds.map .feed) s
  obtain ⟨r, hpass⟩ := streamed_feedPass a s
  induction feeds generalizing a s r with
  | nil =>
    refine ⟨_, [r], run_succ_of_step hstep, ?_⟩
    simpa using hpass.withHost []
  | cons b feeds ih =>
    obtain ⟨hb, hrest⟩ := List.forall_mem_cons.mp hfeeds
    obtain ⟨r', hpass'⟩ := streamed_feedPass b (feedPass a s)
    obtain ⟨t, results, hrun, hstream⟩ := ih hfeeds (feedPass a s) hb hrest (step_feed hb _ _) r' hpass'
    exact ⟨t, r :: results, (run_succ_of_step hstep).trans hrun, hpass.trans hstream⟩

/-- Settles O41: either list of feeds streams the same bytes. -/
theorem anySplitOfAStreamIsTheSame : Obligations.AnySplitOfAStreamIsTheSame := by
  intro feeds feeds' s hsame hne hne' hlen
  obtain ⟨a, feeds, rfl⟩ := List.exists_cons_of_ne_nil hne
  obtain ⟨a', feeds', rfl⟩ := List.exists_cons_of_ne_nil hne'
  obtain ⟨hlens, hlens'⟩ := List.forall_mem_append.mp hlen
  obtain ⟨t, r, hrun, h⟩ := run_feeds hlens s
  obtain ⟨t', r', hrun', h'⟩ := run_feeds hlens' s
  rw [← hsame] at h'
  exact ⟨t, t', r, r', hrun, hrun', h.buf.trans h'.buf.symm, h.ds.trans h'.ds.symm, h.res, h'.res,
    h.evt.trans h'.evt.symm, h.nframes.trans h'.nframes.symm⟩

/-! ### Particular streams -/

/-- A pass skips the bytes without a candidate in front of five bytes or more (R132, R145). -/
theorem wholeWalk_skip {g b : List Byte} (d : DeviceState) (hb : 5 ≤ b.length) (hg : noCandidate g.length (g ++ b)) :
    wholeWalk d (g ++ b) = (wholeWalk d b).after (d, g.length, 0, []) := by
  induction g with
  | nil => simp [Walk.after]
  | cons x g ih =>
    have hstart : examine (x :: g ++ b) = .notStart :=
      examine_notStart (by simp; omega) (not_and_or.mp (hg 0 (Nat.zero_lt_succ _)))
    have htail : noCandidate g.length (g ++ b) := fun k hk => hg (k + 1) (Nat.succ_lt_succ hk)
    have hmove : verdictMove d (examine (x :: g ++ b)) = some (d, 1, 0, []) := by rw [hstart, verdictMove]
    rw [wholeWalk_some hmove]
    simp only [List.cons_append, List.drop_succ_cons, List.drop_zero, ih htail]
    simp [Walk.after]
    omega

/-- A pass applies a frame in front, where one more byte stands beside its five (R135, R147). -/
theorem wholeWalk_invar {fid : Byte} {payload tail : List Byte} (d : DeviceState) (hlen : payload.length ≤ 255)
    (h6 : 1 ≤ payload.length + tail.length) :
    wholeWalk d (invar fid payload ++ tail) =
      (wholeWalk (dispatchEffect d fid payload).1 tail).after
        ((dispatchEffect d fid payload).1, payload.length + 5, 1, (dispatchEffect d fid payload).2) := by
  have hmove : verdictMove d (examine (invar fid payload ++ tail)) =
      some ((dispatchEffect d fid payload).1, payload.length + 5, 1, (dispatchEffect d fid payload).2) := by
    rw [examine_invar hlen (by omega), verdictMove]
  rw [wholeWalk_some hmove, List.drop_left' (invar_length fid payload)]

/-- Fewer than six bytes are settled (R131). -/
theorem settled_of_short {b : List Byte} (h : b.length < 6) : settled b :=
  .inl (examine_of_short h)

/-- A pass over one frame of six bytes or more applies it and goes past it (R135). -/
theorem wholeWalk_single_invar {fid : Byte} {payload : List Byte} (d : DeviceState) (h1 : 1 ≤ payload.length)
    (hlen : payload.length ≤ 255) :
    wholeWalk d (invar fid payload) =
      ⟨(dispatchEffect d fid payload).1, (invar fid payload).length, 1, (dispatchEffect d fid payload).2⟩ := by
  have hend : settled [] := settled_of_short (Nat.zero_lt_succ 5)
  have happly := wholeWalk_invar (tail := []) (fid := fid) d hlen h1
  rw [List.append_nil, wholeWalk_none hend] at happly
  rw [happly, invar_length]
  simp [Walk.after]

/-- A feed after which the buffer is settled changes nothing but BUF (R131, R133). -/
theorem exec_feed_of_settled {bytes : List Byte} {s : State} (hlen : bytes.length ≤ Config.maxFeed)
    (h : settled (s.buf ++ bytes)) :
    exec (.feed bytes) s = .next { s with
      buf := s.buf ++ bytes, pass := Pass.start, res := s.res ++ [⟨false, 0, []⟩] } :=
  exec_feed_of_wholeWalk hlen (wholeWalk_none h)

/-- Settles O42: the pass skips the garbage and applies the frame, and no byte is left. -/
theorem garbageThenOneFrame : Obligations.GarbageThenOneFrame := by
  intro g fid p bytes s hbytes h1 h255 hg hlen
  have hwalk : wholeWalk s.ds (s.buf ++ bytes) = ⟨(dispatchEffect s.ds fid p).1, (g ++ invar fid p).length, 1,
      (dispatchEffect s.ds fid p).2⟩ := by
    rw [hbytes, wholeWalk_skip s.ds (by simp) hg, wholeWalk_single_invar s.ds h1 h255]
    simp [Walk.after]
  rw [exec_feed_of_wholeWalk hlen hwalk, hbytes, List.drop_length]
  rfl

/-- Settles O43: the pass goes one byte into the altered frame with an event, skips the rest of it, and applies the
second frame. -/
theorem corruptedFrameWritesNothing : Obligations.CorruptedFrameWritesNothing := by
  intro fid c p fid' p' bytes s len bad hbytes h255 hc h1 h255' hg hlen
  have hplen : p.length = len.toNat := by simp [len]; omega
  have hmove : verdictMove s.ds (examine (bad ++ invar fid' p')) =
      some (s.ds, 1, 0, [.checksumError fid p.length (cksum fid len p) c]) := by
    have hbad := examine_badChecksum (tail := invar fid' p') hplen (by simp; omega) hc.symm
    simp only [bad, List.cons_append, List.append_assoc, List.nil_append, hbad, verdictMove]
  have hskip : noCandidate (bad.drop 1).length (bad.drop 1 ++ invar fid' p') := by simpa [bad] using hg
  have hwalk : wholeWalk s.ds (s.buf ++ bytes) = ⟨(dispatchEffect s.ds fid' p').1, (bad ++ invar fid' p').length, 1,
      .checksumError fid p.length (cksum fid len p) c :: (dispatchEffect s.ds fid' p').2⟩ := by
    rw [hbytes, wholeWalk_some hmove, List.drop_append_of_le_length (by simp [bad]),
      wholeWalk_skip s.ds (by simp) hskip, wholeWalk_single_invar s.ds h1 h255']
    simp [Walk.after, bad]
    omega
  rw [exec_feed_of_wholeWalk hlen hwalk, hbytes, List.drop_length]
  rfl

/-- Settles O45: the candidate is incomplete, so the buffer is settled as it is. -/
theorem falseCandidateHoldsTheScan : Obligations.FalseCandidateHoldsTheScan := by
  intro bytes fid len more s hbytes h2 hpart hlen
  exact exec_feed_of_settled hlen (.inr (hbytes ▸ examine_incomplete h2 hpart))

/-- Settles O46: five bytes are settled; with a sixth they are a frame, and the sixth is settled. -/
theorem zeroLengthFrameWaitsForAByte : Obligations.ZeroLengthFrameWaitsForAByte := by
  intro fid x bytes s hbytes hlen
  have hframe : s.buf ++ bytes = invar fid [] := by simp [hbytes, invar, cksum]
  have hend : settled [x] := settled_of_short (Nat.succ_lt_succ (Nat.zero_lt_succ 4))
  have hwalk : wholeWalk s.ds (s.buf ++ bytes ++ [x]) =
      ⟨(dispatchEffect s.ds fid []).1, 5, 1, (dispatchEffect s.ds fid []).2⟩ := by
    rw [hframe, wholeWalk_invar s.ds (payload := []) (tail := [x]) (Nat.zero_le 255) (Nat.le_refl 1),
      wholeWalk_none hend]
    simp [Walk.after]
  refine ⟨_, _, exec_feed_of_settled hlen (settled_of_short (by simp [hbytes])), hbytes, rfl,
    exec_feed_of_wholeWalk (Nat.le_add_left ..) hwalk, ?_, rfl, ?_⟩
  · simp [hbytes]
  · simp

/-- Settles O48: the direction byte of an outgoing frame is no header, and the five bytes after it are settled. -/
theorem outgoingFrameIsNotDecoded : Obligations.OutgoingFrameIsNotDecoded := by
  intro cmd fid val bytes s hbytes hlen
  have hg : noCandidate 1 (out6 0xF1 cmd fid val) := by
    intro k hk
    obtain rfl : k = 0 := Nat.lt_one_iff.mp hk
    simp [out6]
  have hskip := wholeWalk_skip (g := [0xF1]) (b := (out6 0xF1 cmd fid val).drop 1) s.ds (by simp) hg
  have hfive : settled ((out6 0xF1 cmd fid val).drop 1) := settled_of_short (by simp)
  rw [wholeWalk_none hfive] at hskip
  have hwalk : wholeWalk s.ds (s.buf ++ bytes) = ⟨s.ds, 1, 0, []⟩ := hbytes ▸ hskip
  rw [exec_feed_of_wholeWalk hlen hwalk, hbytes]
  rfl

end Sys2Proof.Machine
end

section
/-! Field dispatch (R160 to R176): the inbound opcode map, what each inbound instruction makes of its payload, and the
instruction that the scan runs (R135). -/

namespace Sys2Proof

/-! ### The opcode map -/

/-- Settles O15: each of the ten identifiers picks its own line of the map, and an identifier that is none of them the
default. -/
theorem replyMapIsClosed : Obligations.ReplyMapIsClosed := by
  intro p
  refine ⟨rfl, rfl, rfl, rfl, rfl, rfl, rfl, rfl, rfl, rfl, fun fid h0 h1 h2 h3 h4 h5 h6 h7 h8 h9 => ?_⟩
  rw [decodeReply, if_neg h0, if_neg h1, if_neg h2, if_neg h3, if_neg h4, if_neg h5, if_neg h6, if_neg h7, if_neg h8,
    if_neg h9]

/-- An instruction with an identifier and a payload is inbound (R87). -/
theorem Instr.isReply_of_reply {i : Instr} {fid : Byte} {payload : List Byte} (h : i.reply = some (fid, payload)) :
    i.isReply = true := by
  cases i
  case rVin | rOut | rTemp | rOutEn | rModel | rHwVer | rFwVer | rVMax | rIMax | rAll | rOther => rfl
  all_goals cases h

/-- The payload of a frame that the scan finds fits its length byte (R9, R81). -/
theorem payload_length_le_of_examine {r : List Byte} {fid : Byte} {payload : List Byte}
    (h : examine r = .frame fid payload) : payload.length ≤ 255 := by
  obtain ⟨-, len, -, hlen, -⟩ := examine_eq_frame_iff.mp h
  rw [hlen]
  exact Nat.le_of_lt_succ len.isLt

/-- The instruction that stands at the head of some bytes is that of the frame the scan finds there (R135, R160). -/
theorem exists_examine_of_decodeFrame {r : List Byte} {i : Instr} (h : decodeFrame r = .ok i) :
    ∃ fid payload, examine r = .frame fid payload ∧ decodeReply fid payload = i := by
  unfold decodeFrame at h
  cases hverdict : examine r <;> rw [hverdict] at h
  case frame fid payload => exact ⟨fid, payload, rfl, Except.ok.inj h⟩
  all_goals cases h

end Sys2Proof

namespace Sys2Proof.Machine

/-- Settles O32: the scan dispatches and consumes the frame it finds, as the execution of its instruction does. -/
theorem passRunsTheInstructionAtPos : Obligations.PassRunsTheInstructionAtPos := by
  intro s i hdecode
  obtain ⟨fid, payload, hframe, rfl⟩ := exists_examine_of_decodeFrame hdecode
  have hreply := decodeReply_reply fid payload
  refine ⟨decodeReply_wellFormed (payload_length_le_of_examine hframe), Instr.isReply_of_reply hreply, _,
    exec_decodeReply_eq_afterFrame fid payload s, scanStep_of_frame hframe, fun fid' payload' hreply' => ?_⟩
  cases hreply.symm.trans hreply'
  rfl

/-! ### What a dispatch rule writes or raises -/

section

variable {i : Instr} {n : Nat} {s t : State} (hexec : exec i s = .next (consumeFrame n t))

include hexec

/-- An instruction whose rule writes DS raises nothing, and its frame is consumed (R135, R160). -/
theorem exec_eq_of_writeDs {d : DeviceState} (ht : t = writeDs d s) : exec i s = .next (s.afterFrame d n []) := by
  rw [hexec, ht, consumeFrame_writeDs]

/-- An instruction whose rule raises an event writes nothing, and its frame is consumed (R135, R207). -/
theorem exec_eq_of_raise {e : Event} (ht : t = raise e s) : exec i s = .next (s.afterFrame s.ds n [e]) := by
  rw [hexec, ht, consumeFrame_raise]

end

/-! ### Floats and booleans -/

/-- Settles O19: with four bytes there each rule writes the float at offset 0, otherwise it raises its event. -/
theorem singleFloatReplies : Obligations.SingleFloatReplies := by
  refine ⟨?_, fun p s hshort => ?_⟩
  · intro b0 b1 b2 b3 more s p
    have hlen : 4 ≤ p.length := Nat.le_add_left 4 more.length
    have hfloat : f32At p 0 hlen = b3 ++ b2 ++ b1 ++ b0 := f32At_eq p 0 hlen
    rw [← hfloat]
    exact ⟨exec_eq_of_writeDs rfl (dif_pos hlen), exec_eq_of_writeDs rfl (dif_pos hlen),
      exec_eq_of_writeDs rfl (dif_pos hlen), exec_eq_of_writeDs rfl (dif_pos hlen)⟩
  · have hlen : ¬ 4 ≤ p.length := Nat.not_le_of_lt hshort
    exact ⟨exec_eq_of_raise rfl (dif_neg hlen), exec_eq_of_raise rfl (dif_neg hlen),
      exec_eq_of_raise rfl (dif_neg hlen), exec_eq_of_raise rfl (dif_neg hlen)⟩

/-- Settles O20: with twelve bytes there the rule writes the floats at offsets 0, 4 and 8, otherwise it raises its
event. -/
theorem outputReply : Obligations.OutputReply := by
  refine ⟨?_, fun p s hshort => ?_⟩
  · intro a0 a1 a2 a3 b0 b1 b2 b3 c0 c1 c2 c3 more s p
    have hlen : 12 ≤ p.length := Nat.le_add_left 12 more.length
    have hvoltage : f32At p 0 (by omega) = a3 ++ a2 ++ a1 ++ a0 := f32At_eq ..
    have hcurrent : f32At p 4 (by omega) = b3 ++ b2 ++ b1 ++ b0 := f32At_eq ..
    have hpower : f32At p 8 hlen = c3 ++ c2 ++ c1 ++ c0 := f32At_eq ..
    rw [← hvoltage, ← hcurrent, ← hpower]
    exact exec_eq_of_writeDs rfl (dif_pos hlen)
  · exact exec_eq_of_raise rfl (dif_neg (Nat.not_le_of_lt hshort))

/-- Settles O21: the rule writes `Bool1` of a first byte, and raises its event where there is none. -/
theorem outputEnableReply : Obligations.OutputEnableReply := by
  intro b more s
  rw [← bool1_eq]
  exact ⟨exec_eq_of_writeDs rfl (dif_pos (Nat.le_add_left 1 more.length)), exec_eq_of_raise rfl rfl⟩

/-- Settles O23: with 119 bytes there the rule writes the values at their offsets, the float at 115 over that at 111,
otherwise it raises its event. -/
theorem compositeReply : Obligations.CompositeReply := by
  intro p s
  refine ⟨fun hlen => ?_, fun hshort => ?_⟩
  · rw [exec_eq_of_writeDs rfl (dif_pos hlen)]
    simp only [f32At_eq, bool1_eq]
  · exact exec_eq_of_raise rfl (dif_neg (Nat.not_le_of_lt hshort))

/-! ### Texts and other fields -/

/-- Settles O22: the text fields share one rule, which reports the payload if it is well formed and raises
EV_TEXT_ERROR otherwise. -/
theorem textReplies : Obligations.TextReplies := by
  refine fun p s => ⟨fun hlow => ?_, fun ⟨b, hmem, hhigh⟩ => ?_⟩
  · have htext : isAscii p = true := (isAscii_iff p).mpr hlow
    exact ⟨exec_eq_of_raise rfl (if_pos htext), exec_eq_of_raise rfl (if_pos htext),
      exec_eq_of_raise rfl (if_pos htext)⟩
  · have htext : ¬ isAscii p = true := fun h => Nat.not_le_of_lt hhigh ((isAscii_iff p).mp h b hmem)
    exact ⟨exec_eq_of_raise rfl (if_neg htext), exec_eq_of_raise rfl (if_neg htext),
      exec_eq_of_raise rfl (if_neg htext)⟩

/-- Settles O24: the default rule raises its event, whatever the identifier. -/
theorem otherReply : Obligations.OtherReply :=
  fun _ _ _ _ => exec_eq_of_raise rfl rfl

end Sys2Proof.Machine
end

section
/-! The operations of the controller (R190 to R194): REQUEST_ALL and ENABLE are commands of fixed operands, and POLL is
one read and the feed of its bytes. -/

namespace Sys2Proof.Machine

/-- Settles O3: REQUEST_ALL has the operands of `GET 255` and ENABLE those of `SET 219, 1`; 255 + 1 + 0 is 0 modulo 256
and 219 + 1 + 1 is 0xDD. -/
theorem requestAllAndEnablePresentTheirFrames : Obligations.RequestAllAndEnablePresentTheirFrames :=
  fun s => ⟨exec_presents_bytes rfl s, exec_presents_bytes rfl s⟩

/-! ### POLL -/

section

variable {s : State} {reads : List Read}

/-- With no read to be had POLL returns false (R194, log 8). -/
theorem exec_poll_of_transport_nil (h : s.transport = []) : exec .poll s = .next (returnPoll false s) := by
  change execPoll s = _
  rw [execPoll, h]

/-- A read that gives no bytes is taken off, and POLL returns false (R194). -/
theorem exec_poll_of_no_bytes (h : s.transport = .failed :: reads ∨ s.transport = .bytes [] :: reads) :
    exec .poll s = .next (returnPoll false { s with transport := reads }) := by
  change execPoll s = _
  rcases h with hfailed | hempty
  · rw [execPoll, hfailed]
  · rw [execPoll, hempty]
    exact if_pos rfl

/-- A read that gives bytes within MAX_FEED is taken off, and POLL runs its pass (R194). -/
theorem exec_poll_of_bytes {bytes : List Byte} (h : s.transport = .bytes bytes :: reads) (hne : bytes ≠ [])
    (hlen : bytes.length ≤ Config.maxFeed) :
    exec .poll s = .next (pollPass bytes { s with transport := reads }) := by
  change execPoll s = _
  rw [execPoll, h]
  exact (if_neg hne).trans (if_pos (decide_eq_true hlen))

end

/-- The pass of a POLL is that of a FEED, which presents one result; what the POLL returns is that result's `updated`
(R136, R194). -/
theorem exists_result_of_pollPass (bytes : List Byte) (s : State) :
    ∃ r : PassResult, (feedPass bytes s).res = s.res ++ [r] ∧
      pollPass bytes s = { feedPass bytes s with polled := s.polled ++ [r.updated] } := by
  rw [pollPass_eq, feedPass_eq]
  exact ⟨_, rfl, rfl⟩

/-- Settles O51: without bytes POLL returns false; with bytes it runs the pass that FEED of them runs. -/
theorem pollReadsOnceAndFeeds : Obligations.PollReadsOnceAndFeeds := by
  intro s reads
  refine ⟨exec_poll_of_transport_nil, fun hfailed => exec_poll_of_no_bytes (.inl hfailed),
    fun hempty => exec_poll_of_no_bytes (.inr hempty), fun bytes hbytes hne hlen => ?_⟩
  obtain ⟨r, hres, hpoll⟩ := exists_result_of_pollPass bytes { s with transport := reads }
  have hexec := exec_poll_of_bytes hbytes hne hlen
  rw [hpoll] at hexec
  exact ⟨_, r, exec_feed_of_le hlen _, hres, hexec⟩

end Sys2Proof.Machine
end

section
/-! What a pass makes of DS without a look at its events (R206, R210): bytes without a candidate leave it as it is, and
otherwise it is the dispatch of the frames that `framesIn` lists. -/

namespace Sys2Proof.Machine

/-! ### Bytes without a candidate -/

/-- A pass over bytes without a candidate stops in front of the last five (R131, R132). -/
theorem wholeWalk_of_noCandidate {g : List Byte} (d : DeviceState) (hg : noCandidate g.length g) :
    wholeWalk d g = ⟨d, g.length - 5, 0, []⟩ := by
  by_cases hfive : g.length < 5
  · rw [wholeWalk_none (settled_of_short (by omega)), Nat.sub_eq_zero_of_le hfive.le]
  · have hsplit : g.take (g.length - 5) ++ g.drop (g.length - 5) = g := List.take_append_drop ..
    have hhead : (g.take (g.length - 5)).length = g.length - 5 := List.length_take_of_le (Nat.sub_le ..)
    have htail : (g.drop (g.length - 5)).length = 5 := by rw [List.length_drop]; omega
    have hend : settled (g.drop (g.length - 5)) := settled_of_short (by omega)
    have hskip := wholeWalk_skip (g := g.take (g.length - 5)) (b := g.drop (g.length - 5)) d htail.ge
      (by rw [hsplit, hhead]; exact fun k hk => hg k (by omega))
    rw [hsplit, hhead, wholeWalk_none hend] at hskip
    simpa [Walk.after] using hskip

/-- Settles O44: the pass skips all the bytes but the last five, on which it stops. -/
theorem garbageRaisesNoEvent : Obligations.GarbageRaisesNoEvent := by
  rintro g bytes s rfl hg hlen
  exact exec_feed_of_wholeWalk hlen (wholeWalk_of_noCandidate s.ds hg)

/-! ### The frames of a pass -/

/-- DS after the dispatch rules of some frames, in order (R135, R160). -/
def dispatchAll (d : DeviceState) (frames : List (Byte × List Byte)) : DeviceState :=
  frames.foldl (fun d f => (dispatchEffect d f.1 f.2).1) d

theorem dispatchAll_append (d : DeviceState) (a b : List (Byte × List Byte)) :
    dispatchAll d (a ++ b) = dispatchAll (dispatchAll d a) b := List.foldl_append

/-- No frame is found in a residual. -/
theorem framesIn_of_settled {b : List Byte} (h : settled b) (fuel : Nat) : framesIn fuel b = [] := by
  cases fuel with
  | zero => rfl
  | succ n => rcases h with h | h <;> rw [framesIn, h]

/-- Where the scan moves on, the frames found are those of the move, at most one, and then those behind it; the move
dispatches and counts exactly its own (R132, R134, R135). -/
theorem framesIn_of_move {d : DeviceState} {b : List Byte} {m : DeviceState × Nat × Nat × List Event}
    (h : verdictMove d (examine b) = some m) (fuel : Nat) :
    ∃ found, framesIn (fuel + 1) b = found ++ framesIn fuel (b.drop m.2.1) ∧ m.1 = dispatchAll d found ∧
      m.2.2.1 = found.length := by
  rw [framesIn]
  cases hverdict : examine b with
  | tooFew => simp [hverdict, verdictMove] at h
  | incomplete => simp [hverdict, verdictMove] at h
  | notStart =>
    rw [hverdict] at h
    cases h
    exact ⟨[], rfl, rfl, rfl⟩
  | badChecksum fid length c r =>
    rw [hverdict] at h
    cases h
    exact ⟨[], rfl, rfl, rfl⟩
  | frame fid payload =>
    rw [hverdict] at h
    cases h
    exact ⟨[(fid, payload)], rfl, rfl, rfl⟩

/-- A pass dispatches and counts exactly the frames found in its bytes (R29, R210). -/
theorem wholeWalk_framesIn (d : DeviceState) (b : List Byte) {fuel : Nat} (hfuel : b.length ≤ fuel) :
    (wholeWalk d b).ds = dispatchAll d (framesIn fuel b) ∧ (wholeWalk d b).nframes = (framesIn fuel b).length := by
  induction d, b using wholeWalk_induction generalizing fuel with
  | stop d b hstop =>
    rw [wholeWalk_none hstop, framesIn_of_settled hstop]
    exact ⟨rfl, rfl⟩
  | move d b m hmove ih =>
    have hbounds := verdictMove_bounds hmove
    obtain ⟨fuel, rfl⟩ : ∃ k, fuel = k + 1 := ⟨fuel - 1, by omega⟩
    obtain ⟨found, hfound, hds, hcount⟩ := framesIn_of_move hmove fuel
    obtain ⟨ihds, ihcount⟩ := ih (fuel := fuel) (by rw [List.length_drop]; omega)
    rw [wholeWalk_some hmove, hfound, dispatchAll_append, List.length_append, ← hds, ← hcount]
    exact ⟨ihds, congrArg (m.2.2.1 + ·) ihcount⟩

/-- Settles O47: the pass is its walk, which dispatches and counts the frames found. -/
theorem passAppliesExactlyTheValidFrames : Obligations.PassAppliesExactlyTheValidFrames := by
  intro bytes s hlen frames
  obtain ⟨hds, hcount⟩ := wholeWalk_framesIn s.ds (s.buf ++ bytes) (Nat.le_refl _)
  refine ⟨_, (wholeWalk s.ds (s.buf ++ bytes)).evt, exec_feed_of_wholeWalk hlen rfl, hds, ?_⟩
  rw [hcount]

end Sys2Proof.Machine
end

section
/-! RESET (R230): the block's two pieces of state are put back to what they are after reset, and nothing else. -/

namespace Sys2Proof.Machine

/-- RESET takes DS and BUF from the machine after reset, and the ports and the pass stay (R230, log 19). -/
theorem exec_reset (s : State) :
    exec .reset s = .next { s with ds := State.reset.ds, buf := State.reset.buf } := rfl

/-- Settles O50: RESET puts back the values after reset, which are the zeros of R34 and the empty buffer. -/
theorem resetClearsDsAndBuf : Obligations.ResetClearsDsAndBuf := by
  intro s
  obtain ⟨hds, hbuf⟩ := resetStateIsZeroed
  rw [exec_reset, hds, hbuf]

end Sys2Proof.Machine
end

section
/-! The outbound sequence of INITIALIZE (R190), what a payload shorter or longer than its rule needs is worth (R161),
and the bounds of a pass: it ends (R142) as the reference function does (R139), within its buffer (R27, R28), and leaves
a residual (R141, R143). -/

namespace Sys2Proof.Config

/-- The four command codes (R86). -/
theorem CmdCode.toByte_cases (c : CmdCode) :
    c.toByte = 0xA1 ∨ c.toByte = 0xB1 ∨ c.toByte = 0xC0 ∨ c.toByte = 0xC1 := by
  cases c <;> simp [CmdCode.toByte]

/-- Whatever the head of `INIT_SEQ` is, it holds a frame with either initialisation code (R190 (e)). -/
theorem InitHead.exists_mem_frames (h : InitHead) :
    (∃ f ∈ h.frames, f.code = .initC0) ∧ ∃ f ∈ h.frames, f.code = .initC1 := by
  cases hfirst : h.c0First <;> simp [InitHead.frames, hfirst, or_and_right, exists_or]

/-- `BUF_CAP` in numbers (R8, R9). -/
theorem bufCap_eq : bufCap = 259 + maxFeed := rfl

/-- `BUF_CAP` fits `POS_BITS` bits (R8, D5). -/
theorem bufCap_lt_two_pow_posBits : bufCap < 2 ^ posBits := Nat.lt_log2_self

/-- `POS_BITS` is at least 9, since `BUF_CAP` is at least 256 (D5). -/
theorem nine_le_posBits : 9 ≤ posBits := by
  have hcap : 2 ^ 8 ≤ bufCap := by rw [bufCap_eq]; omega
  have hne : bufCap ≠ 0 := by rw [bufCap_eq]; omega
  exact Nat.succ_le_succ ((Nat.le_log2 hne).mpr hcap)

end Sys2Proof.Config

namespace Sys2Proof.Machine

/-! ### INITIALIZE -/

/-- The code, field identifier and value byte of one entry of `INIT_SEQ` (R190). -/
def initOperands (f : Config.InitFrame) : Byte × Byte × Byte := (f.code.toByte, f.fid, f.val)

/-- The six bytes of one entry of `INIT_SEQ` (R110, R190). -/
theorem initFrame_eq (f : Config.InitFrame) :
    initFrame f = [0xF1, (initOperands f).1, (initOperands f).2.1, 0x01, (initOperands f).2.2,
      BitVec.ofNat 8 (((initOperands f).2.1.toNat + 1 + (initOperands f).2.2.toNat) % 256)] :=
  out6_eq ..

/-- Settles O5: the list is that of the free head, whatever it is; the frames presented are those of the head and of
the decided tail. -/
theorem initialiseSendsItsSequence : Obligations.InitialiseSendsItsSequence := by
  obtain ⟨⟨f0, hmem0, hcode0⟩, f1, hmem1, hcode1⟩ := Config.initHead.exists_mem_frames
  refine ⟨Config.initHead.frames.map initOperands, fun e he => ?_, ⟨_, List.mem_map_of_mem hmem0, ?_⟩,
    ⟨_, List.mem_map_of_mem hmem1, ?_⟩, fun s => ?_⟩
  · obtain ⟨f, -, rfl⟩ := List.mem_map.mp he
    exact f.code.toByte_cases
  · rw [initOperands, hcode0]
    rfl
  · rw [initOperands, hcode1]
    rfl
  · have htail : Config.initTail.map initOperands = [(0xA1, 222, 0), (0xA1, 223, 0), (0xA1, 224, 0), (0xA1, 255, 0)] :=
      rfl
    rw [exec_initialise, ← htail, ← List.map_append, List.map_map, List.map_congr_left fun f _ => initFrame_eq f]
    rfl

/-! ### Payloads shorter and longer than the rule needs -/

/-- A dispatch rule that reads `need` payload bytes (R161): with fewer it raises EV_SHORT_PAYLOAD, and with that many it
writes the same DeviceState whatever follows them. -/
structure ReadsFirst (need : Nat) (fid : Byte) (rule : List Byte → State → State) : Prop where
  short : ∀ {p : List Byte}, p.length < need → ∀ s, rule p s = raise (.shortPayload fid p.length) s
  reads : ∀ {p : List Byte}, p.length = need → ∀ s, ∃ d, ∀ more, rule (p ++ more) s = writeDs d s

/-- A float within the first bytes does not depend on what follows them (R52). -/
theorem f32At_append {p : List Byte} {off : Nat} (h : off + 4 ≤ p.length) (more : List Byte)
    (h' : off + 4 ≤ (p ++ more).length) : f32At (p ++ more) off h' = f32At p off h := by
  simp (disch := omega) only [f32At, List.getElem_append_left]

/-- The shape of the numeric and boolean rules: a test of the length, then a write that reads the first bytes only. -/
theorem readsFirst_of_write {need : Nat} {fid : Byte}
    (write : (p : List Byte) → need ≤ p.length → DeviceState → DeviceState)
    (hwrite : ∀ (p more : List Byte) h h' d, write (p ++ more) h' d = write p h d) :
    ReadsFirst need fid fun p s => if h : need ≤ p.length then writeDs (write p h s.ds) s else shortPayload fid p s where
  short hshort _ := dif_neg (Nat.not_le_of_lt hshort)
  reads {p} hlen s := by
    refine ⟨write p hlen.ge s.ds, fun more => ?_⟩
    have hlong : need ≤ (p ++ more).length := by rw [List.length_append, hlen]; exact Nat.le_add_right ..
    rw [dif_pos hlong, hwrite p more hlen.ge hlong]

/-! The seven rules that read a number or a boolean, each with its own `need` (R162 to R165, R169 to R171). -/

theorem readsFirst_replyVin : ReadsFirst 4 192 replyVin :=
  readsFirst_of_write (fun p h d => { d with inputVoltage := f32At p 0 h })
    fun _ more h _ _ => by rw [f32At_append h more]

theorem readsFirst_replyOut : ReadsFirst 12 195 replyOut :=
  readsFirst_of_write
    (fun p h d => { d with
      outputVoltage := f32At p 0 (by omega)
      outputCurrent := f32At p 4 (by omega)
      outputPower := f32At p 8 (by omega) })
    fun _ _ _ _ _ => by simp (disch := omega) only [f32At_append]

theorem readsFirst_replyTemp : ReadsFirst 4 196 replyTemp :=
  readsFirst_of_write (fun p h d => { d with temperature := f32At p 0 h })
    fun _ more h _ _ => by rw [f32At_append h more]

theorem readsFirst_replyOutEn : ReadsFirst 1 219 replyOutEn :=
  readsFirst_of_write (fun p h d => { d with outputClosed := bool1 p[0] })
    fun _ _ h _ _ => by rw [List.getElem_append_left h]

theorem readsFirst_replyVMax : ReadsFirst 4 226 replyVMax :=
  readsFirst_of_write (fun p h d => { d with upperlimitVoltage := f32At p 0 h })
    fun _ more h _ _ => by rw [f32At_append h more]

theorem readsFirst_replyIMax : ReadsFirst 4 227 replyIMax :=
  readsFirst_of_write (fun p h d => { d with upperlimitCurrent := f32At p 0 h })
    fun _ more h _ _ => by rw [f32At_append h more]

theorem readsFirst_replyAll : ReadsFirst 119 255 replyAll :=
  readsFirst_of_write
    (fun p h d => { d with
      inputVoltage := f32At p 0 (by omega)
      setVoltage := f32At p 4 (by omega)
      setCurrent := f32At p 8 (by omega)
      outputVoltage := f32At p 12 (by omega)
      outputCurrent := f32At p 16 (by omega)
      outputPower := f32At p 20 (by omega)
      temperature := f32At p 24 (by omega)
      outputClosed := bool1 p[107]
      upperlimitVoltage := f32At p 115 (by omega) })
    fun _ _ _ _ _ => by simp (disch := omega) only [f32At_append, List.getElem_append_left]

/-- The rule of every numeric or boolean field reads as many bytes as `need` says (R161). -/
theorem readsFirst_dispatch {i : Instr} {fid : Byte} {p : List Byte} (hneed : 0 < i.need)
    (hreply : i.reply = some (fid, p)) : ReadsFirst i.need fid (dispatch fid) := by
  cases i
  case rVin => cases hreply; exact readsFirst_replyVin
  case rOut => cases hreply; exact readsFirst_replyOut
  case rTemp => cases hreply; exact readsFirst_replyTemp
  case rOutEn => cases hreply; exact readsFirst_replyOutEn
  case rVMax => cases hreply; exact readsFirst_replyVMax
  case rIMax => cases hreply; exact readsFirst_replyIMax
  case rAll => cases hreply; exact readsFirst_replyAll
  all_goals cases hneed

/-- An inbound instruction that needs payload bytes is what its identifier decodes to: `R.OTHER` needs none. -/
theorem eq_decodeReply_of_need_pos {i : Instr} {fid : Byte} {p : List Byte} (hneed : 0 < i.need)
    (hreply : i.reply = some (fid, p)) : i = decodeReply fid p := by
  rcases Instr.eq_decodeReply_or_rOther hreply with hmap | rfl
  · exact hmap
  · exact absurd hneed (Nat.lt_irrefl 0)

/-- Settles O25: the rule of the field reads the first `need` bytes, and what the payload holds after them is one of
the ways to go on. -/
theorem shortPayloadWritesNothing : Obligations.ShortPayloadWritesNothing := by
  intro i fid p hneed hreply
  have hrule := readsFirst_dispatch hneed hreply
  have hexec (s : State) : exec i s = .next (consumeFrame p.length (dispatch fid p s)) := by
    rw [eq_decodeReply_of_need_pos hneed hreply, exec_decodeReply]
  refine ⟨fun hshort s => exec_eq_of_raise (hexec s) (hrule.short hshort s), fun hlong s => ?_⟩
  have htake : (p.take i.need).length = i.need := List.length_take_of_le hlong
  obtain ⟨d, hwrite⟩ := hrule.reads htake s
  refine ⟨d, exec_eq_of_writeDs (hexec s) ?_, fun more => ?_⟩
  · rw [← hwrite (p.drop i.need), List.take_append_drop]
  · rw [exec_eq_of_writeDs (exec_decodeReply ..) (hwrite more), List.length_append, htake]

/-! ### The reference function -/

/-- What the reference function gives (R139), told by the walk of a pass over the bytes from `p` on. -/
def scanResult (B : List Byte) (p : Nat) (D : DeviceState) (n : Nat) (E : List Event) :
    List Byte × DeviceState × Nat × List Event :=
  let w := wholeWalk D (B.drop p)
  (B.drop (p + w.pos), w.ds, n + w.nframes, E ++ w.evt)

section

variable {B : List Byte} {p n : Nat} {D : DeviceState} {E : List Event}

theorem scanResult_of_settled (h : settled (B.drop p)) : scanResult B p D n E = (B.drop p, D, n, E) := by
  simp [scanResult, wholeWalk_none h]

theorem scanResult_of_move {D' : DeviceState} {k j : Nat} {F : List Event}
    (h : verdictMove D (examine (B.drop p)) = some (D', k, j, F)) :
    scanResult B p D n E = scanResult B (p + k) D' (n + j) (E ++ F) := by
  simp [scanResult, wholeWalk_some h, Walk.after, Nat.add_assoc]

/-- A candidate whose bytes are all there, with the two checksums R134 compares: its bytes from `p` on are its head, its
payload, the checksum byte received and a tail, and the checksum computed is that of its payload. -/
theorem exists_candidate {fid len c r : Byte} (hsix : ¬ B.length - p < 6) (h0 : B[p]? = some 0xF0)
    (h1 : B[p + 1]? = some 0xA1) (h2 : B[p + 2]? = some fid) (h3 : B[p + 3]? = some len)
    (hall : ¬ B.length - p < len.toNat + 5) (hc : c = sum8 (B.extract (p + 2) (p + 4 + len.toNat)))
    (hr : B[p + 4 + len.toNat]? = some r) :
    ∃ payload tail, B.drop p = 0xF0 :: 0xA1 :: fid :: len :: (payload ++ r :: tail) ∧ payload.length = len.toNat ∧
      6 ≤ payload.length + tail.length + 5 ∧ c = cksum fid len payload := by
  have hget (k : Nat) : B[p + k]? = (B.drop p)[k]? := getElem?_add_of_drop rfl k
  obtain ⟨body, hbody⟩ := exists_eq_cons_of_getElem? ((hget 0).symm.trans h0) ((hget 1).symm.trans h1)
    ((hget 2).symm.trans h2) ((hget 3).symm.trans h3)
  rw [length_sub_of_drop hbody] at hsix hall
  obtain ⟨payload, x, tail, rfl, hlen⟩ :=
    exists_eq_append_cons (l := body) (n := len.toNat) (by simp at hall; omega)
  cases (getElem?_received hlen hbody).symm.trans hr
  exact ⟨payload, tail, hbody, hlen, by simp at hsix; omega, hc.trans (cksum_eq_sum8_extract hlen hbody).symm⟩

end

/-- Each line of the reference function is the verdict on the bytes from `p` on, so it gives nothing but the result of
the walk (R139, R142). -/
theorem Scans.eq_scanResult {B B' : List Byte} {p n n' : Nat} {D D' : DeviceState} {E E' : List Event}
    (h : Scans B p D n E B' D' n' E') : (B', D', n', E') = scanResult B p D n E := by
  induction h with
  | stop hfew =>
    rw [← List.length_drop] at hfew
    rw [scanResult_of_settled (settled_of_short hfew)]
  | @skip p D n E _ _ _ _ hsix hstart _ ih =>
    rw [← List.length_drop, Nat.not_lt] at hsix
    have hverdict : examine (B.drop p) = .notStart :=
      examine_notStart hsix (by rwa [List.getElem?_drop, List.getElem?_drop, Nat.add_zero])
    have hmove : verdictMove D (examine (B.drop p)) = some (D, 1, 0, []) := by rw [hverdict, verdictMove]
    rw [ih, scanResult_of_move hmove, List.append_nil, Nat.add_zero n]
  | @wait p _ _ _ len hsix h0 h1 h3 hpart =>
    have hget (k : Nat) : B[p + k]? = (B.drop p)[k]? := getElem?_add_of_drop rfl k
    rw [← List.length_drop, Nat.not_lt] at hsix
    obtain ⟨b0, b1, fid, len', tail, hhead, htail⟩ := exists_head hsix
    rw [show B[p]? = (B.drop p)[0]? from hget 0, hhead] at h0
    rw [hget, hhead] at h1 h3
    cases h0
    cases h1
    cases h3
    rw [length_sub_of_drop hhead] at hpart
    have hverdict : examine (B.drop p) = .incomplete := by
      rw [hhead]
      exact examine_incomplete htail (by simpa using hpart)
    rw [scanResult_of_settled (.inr hverdict)]
  | @mismatch p D n E _ _ _ _ fid len _ r hsix h0 h1 h2 h3 hall hc hr hbad _ ih =>
    obtain ⟨payload, tail, hbody, hlen, h6, rfl⟩ := exists_candidate hsix h0 h1 h2 h3 hall hc hr
    have hmove : verdictMove D (examine (B.drop p)) =
        some (D, 1, 0, [.checksumError fid len.toNat (cksum fid len payload) r]) := by
      rw [hbody, examine_badChecksum hlen h6 hbad, verdictMove, hlen]
    rw [ih, scanResult_of_move hmove, Nat.add_zero n]
  | @apply p D n E _ _ _ _ fid len _ payload hsix h0 h1 h2 h3 hall hc hr hpayload _ ih =>
    obtain ⟨body, tail, hbody, hlen, h6, rfl⟩ := exists_candidate hsix h0 h1 h2 h3 hall hc hr
    obtain rfl : payload = body := hpayload.trans (extract_payload hlen hbody)
    have hmove : verdictMove D (examine (B.drop p)) =
        some ((dispatchEffect D fid payload).1, len.toNat + 5, 1, (dispatchEffect D fid payload).2) := by
      rw [hbody, examine_frame hlen h6, verdictMove, hlen]
    rw [ih, scanResult_of_move hmove, Nat.add_assoc]

/-- Settles O34: the walk is a result, and every result is the walk's. -/
theorem referenceScanIsAFunction : Obligations.ReferenceScanIsAFunction := by
  intro B p D n E
  refine ⟨⟨_, _, _, _, scans_wholeWalk D (B.drop p) rfl n E⟩, fun B₁ D₁ n₁ E₁ B₂ D₂ n₂ E₂ h₁ h₂ => ?_⟩
  cases h₁.eq_scanResult.trans h₂.eq_scanResult.symm
  exact ⟨rfl, rfl, rfl, rfl⟩

/-! ### The end of a pass -/

/-- After some moves the bytes that remain are those behind the walk. -/
theorem rest_scan (fuel : Nat) (s : State) :
    rest (scan fuel s) = (rest s).drop (walk fuel s.ds (rest s)).pos := by
  rw [scan_eq_walk, rest, rest, List.drop_drop]

/-- Moves beyond those that are enough change nothing (R142). -/
theorem scan_fuel {f g : Nat} {s : State} (hf : (rest s).length ≤ f + 5) (hg : (rest s).length ≤ g + 5) :
    scan f s = scan g s := by
  rw [scan_eq_walk, scan_eq_walk, walk_fuel hf hg]

/-- A pass begins with the residual and the fed bytes before it (R130). -/
theorem rest_startPass (bytes : List Byte) (s : State) : rest (startPass bytes s) = s.buf ++ bytes := rfl

/-- Settles O36: five moves fewer than there are bytes are moves enough to stop, and so as good as one for each byte. -/
theorem passEndsWithinItsBytes : Obligations.PassEndsWithinItsBytes := by
  intro bytes s
  have henough : (rest (startPass bytes s)).length ≤ ((s.buf ++ bytes).length - 5) + 5 := by
    rw [rest_startPass]; omega
  constructor
  · rw [scanStep_eq_none, rest_scan]
    exact walk_settled henough
  · exact scan_fuel (Nat.le_add_right _ 5) henough

/-- Settles O37: a feed that completes is a pass, which leaves a residual. -/
theorem residualIsBounded : Obligations.ResidualIsBounded := by
  intro bytes s t hexec
  rcases execFeed_cases bytes s with ⟨-, hpass⟩ | ⟨-, hrefused⟩
  · cases hpass.symm.trans hexec
    exact settled_length (feedPass_settled bytes s)
  · cases hrefused.symm.trans hexec

/-! ### The buffer during a pass -/

/-- The scan only reads the buffer (R28, R136). -/
theorem scan_buf (fuel : Nat) (s : State) : (scan fuel s).buf = s.buf := by
  rw [scan_eq_walk]

/-- From within the buffer the scan stays within it (R28). -/
theorem scan_pos_le {s : State} (h : s.pass.pos ≤ s.buf.length) (fuel : Nat) :
    (scan fuel s).pass.pos ≤ s.buf.length := by
  have hwalk := walk_pos_le fuel s.ds (rest s)
  rw [rest, List.length_drop] at hwalk
  rw [scan_eq_walk]
  simp only [rest]
  omega

/-- Settles O38: a residual and a feed within MAX_FEED fit BUF_CAP, and the scan neither lengthens the buffer nor
leaves it. -/
theorem bufferNeverOverflows : Obligations.BufferNeverOverflows := by
  intro bytes s hs hlen
  have hresidual := hs.buf_length_le
  refine ⟨fun k => ?_, Config.bufCap_lt_two_pow_posBits, Config.nine_le_posBits⟩
  rw [scan_buf]
  refine ⟨?_, scan_pos_le (Nat.zero_le _) k⟩
  rw [startPass_buf, List.length_append, Config.bufCap_eq]
  exact Nat.add_le_add hresidual hlen

/-! ### Feeds of no bytes and of too many -/

/-- Settles O39: a residual is settled as it is, and the registers of the pass are at their start before and after. -/
theorem emptyFeedChangesNothing : Obligations.EmptyFeedChangesNothing := by
  rintro s ⟨hbuf, hpass, -, -⟩
  have hexec := exec_feed_of_settled (bytes := []) (s := s) (Nat.zero_le _) (by rwa [List.append_nil])
  rwa [List.append_nil, ← hpass] at hexec

/-- A read longer than MAX_FEED makes POLL a refusal (R194, log 3). -/
theorem exec_poll_of_overlong {bytes : List Byte} {reads : List Read} {s : State}
    (h : s.transport = .bytes bytes :: reads) (hlong : Config.maxFeed < bytes.length) :
    exec .poll s = .refused (.feedTooLong bytes.length) := by
  have hne : bytes ≠ [] := List.ne_nil_of_length_pos (Nat.zero_lt_of_lt hlong)
  have hunfit : ¬ Config.feedFits bytes = true := by simpa [Config.feedFits] using hlong
  change execPoll s = _
  rw [execPoll, h]
  exact (if_neg hne).trans (if_neg hunfit)

/-- Settles O35: neither operation takes bytes that do not fit a feed. -/
theorem overlongFeedIsRefused : Obligations.OverlongFeedIsRefused := by
  intro bytes s hlong
  refine ⟨?_, fun reads h => exec_poll_of_overlong h hlong⟩
  rcases execFeed_cases bytes s with ⟨hfits, -⟩ | ⟨-, hrefused⟩
  · exact absurd hfits (Nat.not_le_of_lt hlong)
  · exact hrefused

end Sys2Proof.Machine
end
